-- ==== Sys2Proof/Word.lean ====
section
/-! DEFINITION. The machine's word types and register index (spec 00_scope.md R7, 30_encoding.md R42). -/

namespace Sys2Proof

/-- A memory byte, a general register, a timer (R7: `V_WIDTH`, `TIMER_WIDTH`). -/
abbrev Byte := BitVec 8

/-- An opcode, `PC`, `I`, a stack entry (R7: `OPCODE_WIDTH`, `PC_WIDTH`, `I_WIDTH`, `STACK_ENTRY_WIDTH`). -/
abbrev Word := BitVec 16

/-- One nibble of an opcode (R42). -/
abbrev Nibble := BitVec 4

/-- The 12-bit address field `NNN` (R42). -/
abbrev Addr12 := BitVec 12

/-- A register index 0..15, the `X` and `Y` fields (R43). -/
abbrev RegIx := Fin 16

/-- A key index 0..15 (R23). -/
abbrev KeyIx := Fin 16

/-- The framebuffer plane, 32 rows of 64 one-bit pixels (R24): pixel `i`, at column `i mod 64` and row `i div 64`,
is bit `i mod 64` of row `i div 64` (log 23). -/
abbrev Plane := Vector (BitVec 64) 32

end Sys2Proof
end

