-- ==== Sys2Proof/Config.lean ====
section
/-! DEFINITION. What one implementation fixes (spec 00_scope.md R7, R8) and the values the spec leaves free (R8, R27). -/

namespace Sys2Proof.Config

/-- `MEM_SIZE` (R7): addresses 0x000-0xFFF. -/
abbrev memSize : Nat := 4096

/-- `PROGRAM_BASE` and `PC_RESET` (R7). -/
abbrev programBase : Nat := 0x200

/-- `MAX_ROM` = 4096 - 0x200 (R7). -/
abbrev maxRom : Nat := 3584

/-- `FONT_SIZE` (R7); `FONT_BASE` is 0x000. -/
abbrev fontSize : Nat := 80

/-- `STACK_DEPTH` (R7). -/
abbrev stackDepth : Nat := 16

/-- `FB_SIZE` (R7): 64 columns, 32 rows. -/
abbrev fbSize : Nat := 2048

/-- `I_OVERFLOW_POLICY` (R8, decision D7): what FX1E does when `I + VX` passes 0xFFFF. -/
inductive IOverflowPolicy where
  | fault
  | wrap16
  deriving DecidableEq, Repr

/-- The parameters R8 lists, which a model takes as configuration arguments: `execWith`, `stepWith`, `hostResetWith` and
`State.constructed` take them. -/
structure Params where
  /-- `FONT` (D17): 80 bytes, installed at 0x000 (R30, R108). -/
  font : Vector Byte fontSize
  /-- `DRAW_CLEARS_VF` (D12). -/
  drawClearsVF : Bool
  /-- `I_OVERFLOW_POLICY` (D7). -/
  iOverflow : IOverflowPolicy
  /-- `FX1E_SETS_VF` (D8). -/
  fx1eSetsVF : Bool
  deriving DecidableEq, Repr

/-- The standard hex-digit glyphs, row by row, digits 0 to 7 (R30). UNVERIFIED (log 8): the spec
has the bytes from general knowledge, not from its source. -/
def glyphs0to7 : List Byte :=
  [0xF0, 0x90, 0x90, 0x90, 0xF0] ++ [0x20, 0x60, 0x20, 0x20, 0x70] ++
  [0xF0, 0x10, 0xF0, 0x80, 0xF0] ++ [0xF0, 0x10, 0xF0, 0x10, 0xF0] ++
  [0x90, 0x90, 0xF0, 0x10, 0x10] ++ [0xF0, 0x80, 0xF0, 0x10, 0xF0] ++
  [0xF0, 0x80, 0xF0, 0x90, 0xF0] ++ [0xF0, 0x10, 0x20, 0x40, 0x40]

/-- The standard hex-digit glyphs, digits 8 to F (R30). UNVERIFIED (log 8). -/
def glyphs8toF : List Byte :=
  [0xF0, 0x90, 0xF0, 0x90, 0xF0] ++ [0xF0, 0x90, 0xF0, 0x10, 0xF0] ++
  [0xF0, 0x90, 0xF0, 0x90, 0x90] ++ [0xE0, 0x90, 0xE0, 0x90, 0xE0] ++
  [0xF0, 0x80, 0x80, 0x80, 0xF0] ++ [0xE0, 0x90, 0x90, 0x90, 0xE0] ++
  [0xF0, 0x80, 0xF0, 0x80, 0xF0] ++ [0xF0, 0x80, 0xF0, 0x80, 0x80]

/-- The default of `FONT` (R8, R30): 80 bytes. -/
def standardFont : Vector Byte fontSize := ⟨(glyphs0to7 ++ glyphs8toF).toArray, rfl⟩

/-- This machine's parameters: the defaults of R8 (logs 5 to 8). -/
def params : Params :=
  { font := standardFont, drawClearsVF := true, iOverflow := .fault, fx1eSetsVF := false }

/-- `RandomByte()` (R8, R72, D11): the `n`-th draw, any byte under no law. Free value (log 3). -/
opaque randomByte : Nat → Byte

/-- The free number behind `KeyChoice(P)` (R8, R88, D10): which of the pressed keys the `n`-th draw takes. Free value (log 4). -/
opaque keyPick : Nat → Nat

end Sys2Proof.Config
end

