-- ==== Sys2Proof/Syntax.lean ====
section
/-! DEFINITION. The instruction set: one constructor per row of spec/opcode_table.json (30_encoding.md R46, R50). -/

namespace Sys2Proof

/-- The 34 instructions (R2, R46). Every field is exactly as wide as its encoding (R43), so every term has a word. -/
inductive Instr where
  /-- `00E0` CLS (R80). -/
  | cls
  /-- `00EE` RET (R52). -/
  | ret
  /-- `1NNN` JP addr (R53). -/
  | jp (nnn : Addr12)
  /-- `2NNN` CALL addr (R54). -/
  | call (nnn : Addr12)
  /-- `3XNN` SE Vx, byte (R55). -/
  | seImm (x : RegIx) (nn : Byte)
  /-- `4XNN` SNE Vx, byte (R56). -/
  | sneImm (x : RegIx) (nn : Byte)
  /-- `5XY0` SE Vx, Vy (R57). -/
  | seReg (x y : RegIx)
  /-- `6XNN` LD Vx, byte (R61). -/
  | ldImm (x : RegIx) (nn : Byte)
  /-- `7XNN` ADD Vx, byte (R62). -/
  | addImm (x : RegIx) (nn : Byte)
  /-- `8XY0` LD Vx, Vy (R63). -/
  | ldReg (x y : RegIx)
  /-- `8XY1` OR Vx, Vy (R64). -/
  | orReg (x y : RegIx)
  /-- `8XY2` AND Vx, Vy (R65). -/
  | andReg (x y : RegIx)
  /-- `8XY3` XOR Vx, Vy (R66). -/
  | xorReg (x y : RegIx)
  /-- `8XY4` ADD Vx, Vy (R67). -/
  | addReg (x y : RegIx)
  /-- `8XY5` SUB Vx, Vy (R68). -/
  | sub (x y : RegIx)
  /-- `8XY6` SHR Vx, any Y (R69; log 24). -/
  | shr (x : RegIx)
  /-- `8XY7` SUBN Vx, Vy (R70). -/
  | subn (x y : RegIx)
  /-- `8XYE` SHL Vx, any Y (R71; log 24). -/
  | shl (x : RegIx)
  /-- `9XY0` SNE Vx, Vy (R58). -/
  | sneReg (x y : RegIx)
  /-- `ANNN` LD I, addr (R74). -/
  | ldI (nnn : Addr12)
  /-- `BNNN` JP V0, addr (R59). -/
  | jpV0 (nnn : Addr12)
  /-- `CXNN` RND Vx, byte (R72). -/
  | rnd (x : RegIx) (nn : Byte)
  /-- `DXYN` DRW Vx, Vy, nibble (R81). -/
  | drw (x y : RegIx) (n : Nibble)
  /-- `EX9E` SKP Vx (R83). -/
  | skp (x : RegIx)
  /-- `EXA1` SKNP Vx (R84). -/
  | sknp (x : RegIx)
  /-- `FX07` LD Vx, DT (R85). -/
  | ldVxDt (x : RegIx)
  /-- `FX0A` LD Vx, K (R88). -/
  | ldVxK (x : RegIx)
  /-- `FX15` LD DT, Vx (R86). -/
  | ldDtVx (x : RegIx)
  /-- `FX18` LD ST, Vx (R87). -/
  | ldStVx (x : RegIx)
  /-- `FX1E` ADD I, Vx (R75). -/
  | addIVx (x : RegIx)
  /-- `FX29` LD F, Vx (R76). -/
  | ldFVx (x : RegIx)
  /-- `FX33` LD B, Vx (R77). -/
  | ldBVx (x : RegIx)
  /-- `FX55` LD [I], Vx (R78). -/
  | ldMemVx (x : RegIx)
  /-- `FX65` LD Vx, [I] (R79). -/
  | ldVxMem (x : RegIx)
  deriving DecidableEq, Repr

end Sys2Proof
end

