-- ==== Sys2Proof/Decode.lean ====
section
/-! DEFINITION. Decode, total on any word and any bytes, and the encoder (30_encoding.md R42 to R48; 20_memory.md R35). -/

namespace Sys2Proof

/-! ### Fields (R42, R43) -/

/-- Bits 15-12, the family `F` (the source's `op1`, R42). -/
def family (w : Word) : Nibble := w.extractLsb' 12 4

/-- Bits 11-8, `X` (R42). -/
def nibbleX (w : Word) : Nibble := w.extractLsb' 8 4

/-- Bits 7-4, `Y` (R42). -/
def nibbleY (w : Word) : Nibble := w.extractLsb' 4 4

/-- Bits 3-0, `N` (R42). -/
def nibbleN (w : Word) : Nibble := w.extractLsb' 0 4

/-- Bits 7-0, `NN` (R42). -/
def fieldNN (w : Word) : Byte := w.extractLsb' 0 8

/-- Bits 11-0, `NNN` (R42). -/
def fieldNNN (w : Word) : Addr12 := w.extractLsb' 0 12

/-- A register index from its nibble (R43: `x = opcode[11:8]`, 0..15). -/
def regOf (n : Nibble) : RegIx := n.toFin

/-- A register index as its nibble. -/
def nibbleOf (x : RegIx) : Nibble := BitVec.ofFin x

/-! ### Decode -/

/-- Why bytes are no instruction. -/
inductive Reject where
  /-- A word no pattern matches (R45, R47), with the word. -/
  | unknownOpcode (op : Word)
  /-- Fewer than two bytes; the machine's fetch never gives these (R44 faults first). -/
  | tooShort
  deriving DecidableEq, Repr

/-- Family 0x0: the whole word selects (R46). -/
def decodeZero (w : Word) : Except Reject Instr :=
  if w = 0x00E0#16 then .ok .cls
  else if w = 0x00EE#16 then .ok .ret
  else .error (.unknownOpcode w)

/-- Family 0x8: `N` selects (R46). -/
def decodeEight (w : Word) : Except Reject Instr :=
  let x := regOf (nibbleX w)
  let y := regOf (nibbleY w)
  let n := nibbleN w
  if n = 0x0#4 then .ok (.ldReg x y)
  else if n = 0x1#4 then .ok (.orReg x y)
  else if n = 0x2#4 then .ok (.andReg x y)
  else if n = 0x3#4 then .ok (.xorReg x y)
  else if n = 0x4#4 then .ok (.addReg x y)
  else if n = 0x5#4 then .ok (.sub x y)
  else if n = 0x6#4 then .ok (.shr x)
  else if n = 0x7#4 then .ok (.subn x y)
  else if n = 0xE#4 then .ok (.shl x)
  else .error (.unknownOpcode w)

/-- Family 0xE: `NN` selects (R46). -/
def decodeE (w : Word) : Except Reject Instr :=
  let x := regOf (nibbleX w)
  let nn := fieldNN w
  if nn = 0x9E#8 then .ok (.skp x)
  else if nn = 0xA1#8 then .ok (.sknp x)
  else .error (.unknownOpcode w)

/-- Family 0xF: `NN` selects (R46). -/
def decodeF (w : Word) : Except Reject Instr :=
  let x := regOf (nibbleX w)
  let nn := fieldNN w
  if nn = 0x07#8 then .ok (.ldVxDt x)
  else if nn = 0x0A#8 then .ok (.ldVxK x)
  else if nn = 0x15#8 then .ok (.ldDtVx x)
  else if nn = 0x18#8 then .ok (.ldStVx x)
  else if nn = 0x1E#8 then .ok (.addIVx x)
  else if nn = 0x29#8 then .ok (.ldFVx x)
  else if nn = 0x33#8 then .ok (.ldBVx x)
  else if nn = 0x55#8 then .ok (.ldMemVx x)
  else if nn = 0x65#8 then .ok (.ldVxMem x)
  else .error (.unknownOpcode w)

/-- Families 0x5 and 0x9: `N` must be 0 (R46, R57, R58). -/
def decodeXY0 (w : Word) (i : RegIx → RegIx → Instr) : Except Reject Instr :=
  if nibbleN w = 0x0#4 then .ok (i (regOf (nibbleX w)) (regOf (nibbleY w)))
  else .error (.unknownOpcode w)

/-- Decode one opcode: dispatch on the family, then on `N` or `NN` (R45, R46). A word no pattern matches is
rejected by name, and runs as R47 says. -/
def decode (w : Word) : Except Reject Instr :=
  let x := regOf (nibbleX w)
  let y := regOf (nibbleY w)
  let nn := fieldNN w
  let nnn := fieldNNN w
  let f := family w
  if f = 0x0#4 then decodeZero w
  else if f = 0x1#4 then .ok (.jp nnn)
  else if f = 0x2#4 then .ok (.call nnn)
  else if f = 0x3#4 then .ok (.seImm x nn)
  else if f = 0x4#4 then .ok (.sneImm x nn)
  else if f = 0x5#4 then decodeXY0 w .seReg
  else if f = 0x6#4 then .ok (.ldImm x nn)
  else if f = 0x7#4 then .ok (.addImm x nn)
  else if f = 0x8#4 then decodeEight w
  else if f = 0x9#4 then decodeXY0 w .sneReg
  else if f = 0xA#4 then .ok (.ldI nnn)
  else if f = 0xB#4 then .ok (.jpV0 nnn)
  else if f = 0xC#4 then .ok (.rnd x nn)
  else if f = 0xD#4 then .ok (.drw x y (nibbleN w))
  else if f = 0xE#4 then decodeE w
  else decodeF w

/-! ### Byte order (R35) -/

/-- `M[PC] ++ M[PC+1]`: the first byte in bits 15-8 (R35). -/
def joinBytes (hi lo : Byte) : Word := hi ++ lo

/-- The two bytes of an opcode in memory order (R35, R50: high byte first). -/
def wordBytes (w : Word) : List Byte := [w.extractLsb' 8 8, w.extractLsb' 0 8]

/-- Decode the first instruction of a byte sequence and give the rest (R35, R42: every instruction is two bytes). -/
def decodeBytes : List Byte → Except Reject (Instr × List Byte)
  | hi :: lo :: rest =>
    match decode (joinBytes hi lo) with
    | .ok i => .ok (i, rest)
    | .error r => .error r
  | _ => .error .tooShort

/-- What the decoder reads from a table word of `nbits` bits (the bits above are 0), laid out as the hardware
stores it. -/
def decodeTableWord (nbits w : Nat) : Option Instr :=
  match decodeBytes (wordBytes (BitVec.ofNat 16 (w % 2 ^ nbits))) with
  | .ok (i, _) => some i
  | .error _ => none

/-! ### Encode -/

/-- Family and `NNN`. -/
def encNNN (f : Nibble) (nnn : Addr12) : Word := f ++ nnn

/-- Family, `X`, `NN`. -/
def encXNN (f : Nibble) (x : RegIx) (nn : Byte) : Word := f ++ (nibbleOf x ++ nn : Addr12)

/-- Family, `X`, `Y`, `N`. -/
def encXYN (f : Nibble) (x : RegIx) (y n : Nibble) : Word := encXNN f x (y ++ n : Byte)

/-- The word of an instruction (R46, R50). SHR and SHL get 0 in the ignored Y field, as R50 says (log 24). -/
def encode : Instr → Word
  | .cls => 0x00E0#16
  | .ret => 0x00EE#16
  | .jp nnn => encNNN 0x1#4 nnn
  | .call nnn => encNNN 0x2#4 nnn
  | .seImm x nn => encXNN 0x3#4 x nn
  | .sneImm x nn => encXNN 0x4#4 x nn
  | .seReg x y => encXYN 0x5#4 x (nibbleOf y) 0x0#4
  | .ldImm x nn => encXNN 0x6#4 x nn
  | .addImm x nn => encXNN 0x7#4 x nn
  | .ldReg x y => encXYN 0x8#4 x (nibbleOf y) 0x0#4
  | .orReg x y => encXYN 0x8#4 x (nibbleOf y) 0x1#4
  | .andReg x y => encXYN 0x8#4 x (nibbleOf y) 0x2#4
  | .xorReg x y => encXYN 0x8#4 x (nibbleOf y) 0x3#4
  | .addReg x y => encXYN 0x8#4 x (nibbleOf y) 0x4#4
  | .sub x y => encXYN 0x8#4 x (nibbleOf y) 0x5#4
  | .shr x => encXYN 0x8#4 x 0x0#4 0x6#4
  | .subn x y => encXYN 0x8#4 x (nibbleOf y) 0x7#4
  | .shl x => encXYN 0x8#4 x 0x0#4 0xE#4
  | .sneReg x y => encXYN 0x9#4 x (nibbleOf y) 0x0#4
  | .ldI nnn => encNNN 0xA#4 nnn
  | .jpV0 nnn => encNNN 0xB#4 nnn
  | .rnd x nn => encXNN 0xC#4 x nn
  | .drw x y n => encXYN 0xD#4 x (nibbleOf y) n
  | .skp x => encXNN 0xE#4 x 0x9E#8
  | .sknp x => encXNN 0xE#4 x 0xA1#8
  | .ldVxDt x => encXNN 0xF#4 x 0x07#8
  | .ldVxK x => encXNN 0xF#4 x 0x0A#8
  | .ldDtVx x => encXNN 0xF#4 x 0x15#8
  | .ldStVx x => encXNN 0xF#4 x 0x18#8
  | .addIVx x => encXNN 0xF#4 x 0x1E#8
  | .ldFVx x => encXNN 0xF#4 x 0x29#8
  | .ldBVx x => encXNN 0xF#4 x 0x33#8
  | .ldMemVx x => encXNN 0xF#4 x 0x55#8
  | .ldVxMem x => encXNN 0xF#4 x 0x65#8

/-- The word with the bits its instruction ignores cleared: the Y field of 8XY6 and 8XYE (R43, R69, R71). -/
def clearIgnored (w : Word) : Word :=
  if family w = 0x8#4 ∧ (nibbleN w = 0x6#4 ∨ nibbleN w = 0xE#4) then w &&& 0xFF0F#16 else w

end Sys2Proof
end

