-- ==== Sys2Proof/Machine/State.lean ====
section
/-! DEFINITION. The machine's state (10_state.md), its faults and outcomes, and the state after reset (70_reset_and_hazards.md R106). -/

namespace Sys2Proof.Machine

/-- Memory `M` (R14, R28): address and byte pairs in one canonical form (`Memory.wf`), listing the bytes that
differ from what memory holds right after reset (`Memory.unlisted`; log 10). -/
abbrev Memory := List Host.Cell

/-- The faults of R91, each with its info. -/
inductive CoreFault where
  /-- Code 1, by every step: `PC + 1 > 0xFFF` at fetch (R44, D6). -/
  | fetchFault (pc : Word)
  /-- Code 2, by DXYN, FX33, FX55, FX65: the lowest accessed address above 0xFFF (R73, D5). -/
  | addressFault (addr : Nat)
  /-- Code 3, by 2NNN at SP = 16 (R20, D3). -/
  | stackOverflow (pc : Word)
  /-- Code 4, by 00EE at SP = 0 (R21, D4). -/
  | stackUnderflow (pc : Word)
  /-- Code 5, by EX9E and EXA1 with V[x] > 15 (R82, D9). -/
  | keyIndexFault (v : Byte)
  /-- Code 6, by FX1E when the sum passes 0xFFFF (R75, D7). -/
  | indexOverflow (s : Nat)
  deriving DecidableEq, Repr

/-- `RUN` (R26). -/
inductive RunStatus where
  | running
  | faulted (f : CoreFault)
  deriving DecidableEq, Repr

/-- The output events of a step (R100). -/
inductive Event where
  | unknownOpcode (op : Word)
  | beep
  deriving DecidableEq, Repr

/-- The three outcomes of a step that the host gets back (R89, R102). -/
inductive StepResult where
  | advanced (events : List Event)
  | blocked
  | faulted (f : CoreFault)
  deriving DecidableEq, Repr

/-- The whole state. The fields up to `run` are the twelve elements of R14; the last two are the model's own
(logs 1 and 3). -/
structure State where
  /-- `M[0..4095]`. -/
  mem : Memory
  /-- `V[0..15]`; `V[15]` is VF, the flag (R15, R16). -/
  v : Vector Byte 16
  /-- `I`, 16 bits, not masked to 12 (R17). -/
  i : Word
  /-- `PC` (R18). -/
  pc : Word
  /-- `SP`, 0..16: how many stack entries are in use (R19, D23). -/
  sp : Fin 17
  /-- `S[0..15]` (R19). -/
  stack : Vector Word 16
  /-- `DT` (R22). -/
  dt : Byte
  /-- `ST` (R22). -/
  st : Byte
  /-- `KEY[0..15]`, true when pressed (R23). -/
  keys : Vector Bool 16
  /-- `FB[0..2047]`, row by row (R24). -/
  fb : Plane
  /-- `DIRTY` (R25). -/
  dirty : Bool
  /-- `RUN` (R26). -/
  run : RunStatus
  /-- What the latest step returned to the host; `none` before the first step (the model's own, log 1). -/
  lastStep : Option StepResult
  /-- How many free draws have been made (the model's own, logs 3 and 4). -/
  draws : Nat
  deriving DecidableEq, Repr

/-- What stops the machine. -/
inductive Fault where
  /-- Raised by `step` alone, when `RUN = Faulted(f)`: a faulted core has no step (R26, R89). Safe: nothing is
  claimed of such a step. -/
  | coreFaulted (f : CoreFault)
  deriving DecidableEq, Repr

/-- Why an instruction has no meaning. -/
inductive Refusal where
  /-- For `exec`'s arms only: the named instruction has no meaning yet. No arm uses it. Safe. -/
  | notModelled (mnemonic : String)
  deriving DecidableEq, Repr

/-- What a meaning answers. -/
abbrev Result := Host.Outcome State Fault Refusal

/-- The machine after construction with no ROM (R14, R31, R106, R107): memory holds the font and zeros, every
register 0, `PC` 0x200. FB, DIRTY and KEY are decision D16 (log 9); `lastStep` and `draws` are logs 1 and 3. -/
def State.reset : State :=
  { mem := []
    v := Vector.replicate 16 0#8
    i := 0#16
    pc := BitVec.ofNat 16 Config.programBase
    sp := 0
    stack := Vector.replicate 16 0#16
    dt := 0#8
    st := 0#8
    keys := Vector.replicate 16 false
    fb := Vector.replicate 32 0#64
    dirty := false
    run := .running
    lastStep := none
    draws := 0 }

end Sys2Proof.Machine
end

