-- ==== Sys2Proof/Machine/Memory.lean ====
section
/-! DEFINITION. Memory as a list in one canonical form: reading and writing bytes (20_memory.md R28 to R34). -/

namespace Sys2Proof.Machine

/-- What an unlisted address reads as: memory of this machine right after reset with no ROM, the default font at
0x000-0x04F and zero elsewhere (R31; logs 8 and 10). It is how a memory is written down, whatever `FONT` is: another
font's bytes are written over these (`Memory.installFont`). -/
def Memory.unlisted (a : Nat) : Byte := if a < Config.fontSize then Config.params.font.toList.getD a 0#8 else 0#8

/-- The listed byte of an address, if any. -/
def Memory.find (m : Memory) (a : Nat) : Option Byte :=
  match m with
  | [] => none
  | (b, v) :: rest => if a = b then some v else Memory.find rest a

/-- `M[a]` (R33, for an address in range). -/
def Memory.read (m : Memory) (a : Nat) : Byte := (m.find a).getD (Memory.unlisted a)

/-- Put a cell in its place, replacing the one of the same address. -/
def Memory.insert (m : Memory) (a : Nat) (v : Byte) : Memory :=
  match m with
  | [] => [(a, v)]
  | (b, w) :: rest =>
    if a < b then (a, v) :: (b, w) :: rest
    else if a = b then (a, v) :: rest
    else (b, w) :: Memory.insert rest a v

/-- Take an address off the list. -/
def Memory.erase (m : Memory) (a : Nat) : Memory :=
  match m with
  | [] => []
  | (b, w) :: rest => if a = b then Memory.erase rest a else (b, w) :: Memory.erase rest a

/-- `M[a] <- v` (R34, for an address in range): keeps the canonical form. -/
def Memory.write (m : Memory) (a : Nat) (v : Byte) : Memory :=
  if v = Memory.unlisted a then m.erase a else m.insert a v

/-- Bytes to consecutive addresses, the first at `a` (R77, R78, R108). -/
def Memory.writeList (m : Memory) (a : Nat) (vs : List Byte) : Memory :=
  match vs with
  | [] => m
  | v :: rest => Memory.writeList (m.write a v) (a + 1) rest

/-- `install_font()` (R106, R108): `FONT` to 0x000-0x04F. -/
def Memory.installFont (font : Vector Byte Config.fontSize) (m : Memory) : Memory := m.writeList 0 font.toList

/-- The listed addresses rise strictly. -/
def Memory.rising (m : Memory) : Bool :=
  match m with
  | [] => true
  | [_] => true
  | (a, _) :: (b, w) :: rest => decide (a < b) && Memory.rising ((b, w) :: rest)

/-- The canonical form: addresses strictly rising, all in 0x000-0xFFF, and no cell equal to what an unlisted
address reads as. -/
def Memory.wf (m : Memory) : Bool :=
  m.rising && m.all (fun c => decide (c.1 < Config.memSize) && c.2 != Memory.unlisted c.1)

end Sys2Proof.Machine
end

