-- ==== Sys2Proof/Machine/Ops.lean ====
section
/-! DEFINITION. The named operations over the state: registers, stack, step endings, raising a fault, events, the timer tick, fetch, free draws (10_state.md, 60_exceptions.md). -/

namespace Sys2Proof.Machine

/-! ### Registers (R15, R16) -/

/-- `V[x]`. -/
def State.getV (s : State) (x : RegIx) : Byte := s.v.get x

/-- `V[x] <- b`. No register is hard-wired (R15). -/
def State.setV (s : State) (x : RegIx) (b : Byte) : State := { s with v := s.v.set x.val b x.isLt }

/-- The index of VF (R10, R16). -/
abbrev vf : RegIx := 15

/-- The sixteen register indices, rising. -/
def allRegs : List RegIx := [0, 1, 2, 3, 4, 5, 6, 7, 8, 9, 10, 11, 12, 13, 14, 15]

/-- `0..x`, the registers FX55 and FX65 transfer (R78, R79). -/
def regsUpTo (x : RegIx) : List RegIx := allRegs.filter (fun k => decide (k ≤ x))

/-! ### The keypad and the plane (R23, R24) -/

/-- `KEY[k]`. -/
def State.key (s : State) (k : KeyIx) : Bool := s.keys.get k

/-- `{ k in 0..15 | KEY[k] }`, rising (R88). -/
def State.pressed (s : State) : List KeyIx := allRegs.filter s.key

/-- `FB[p]` (R24): bit `p mod 64` of row `p div 64`; false past 2047. -/
def Plane.pixel (fb : Plane) (p : Nat) : Bool := (fb[p / 64]?.getD 0#64).getLsbD (p % 64)

/-- `FB[p] <- FB[p] XOR 1` (R81). -/
def Plane.flip (fb : Plane) (p : Nat) : Plane :=
  fb.setIfInBounds (p / 64) (fb[p / 64]?.getD 0#64 ^^^ BitVec.twoPow 64 (p % 64))

/-- The plane with every pixel 0 (R80). -/
def blankPlane : Plane := Vector.replicate 32 0#64

/-- `FB[p]` of a state. -/
def State.pixel (s : State) (p : Nat) : Bool := Plane.pixel s.fb p

/-! ### How a step ends (R49, R89) -/

/-- The end of an instruction that completes: `PC` gets its one new value and the step advances, with no event of
its own (R49, R100). -/
def finish (s : State) (target : Word) : Result :=
  .next { s with pc := target, lastStep := some (.advanced []) }

/-- `pc <- PC + 2` (R49). -/
def finishNext (s : State) : Result := finish s (s.pc + 2#16)

/-- `pc <- PC + 4` when the condition holds, else `PC + 2` (R49). -/
def finishSkip (s : State) (cond : Bool) : Result := finish s (if cond then s.pc + 4#16 else s.pc + 2#16)

/-- `raise f` (R11, R92): the one way a fault is taken. The state stays as the step began but for `RUN`, which
records the fault, and the step returns `Faulted(f)`. There is no handler and no return (R92, R93): the only way
out is the host's reset (`hostReset`). Every caller raises before its first write. -/
def raise (s : State) (f : CoreFault) : Result :=
  .next { s with run := .faulted f, lastStep := some (.faulted f) }

/-- `block` (R11, R88, R89): the step returns `Blocked` and nothing changes. -/
def block (s : State) : Result := .next { s with lastStep := some .blocked }

/-- The code R91 gives a fault. -/
def CoreFault.code : CoreFault → Nat
  | .fetchFault _ => 1
  | .addressFault _ => 2
  | .stackOverflow _ => 3
  | .stackUnderflow _ => 4
  | .keyIndexFault _ => 5
  | .indexOverflow _ => 6

/-! ### The call stack (R19 to R21) -/

/-- `Push(v)` (R20): `none` when `SP = 16`. -/
def State.push (s : State) (r : Word) : Option State :=
  if h : s.sp.val < 16 then
    some { s with stack := s.stack.set s.sp.val r h, sp := ⟨s.sp.val + 1, Nat.succ_lt_succ h⟩ }
  else none

/-- `Pop()` (R21): `none` when `SP = 0`; the slot keeps its value. -/
def State.pop (s : State) : Option (Word × State) :=
  match s.sp with
  | ⟨0, _⟩ => none
  | ⟨n + 1, h⟩ => some (s.stack.get ⟨n, Nat.lt_of_succ_lt_succ h⟩, { s with sp := ⟨n, Nat.lt_of_succ_lt h⟩ })

/-! ### Events and the timer tick (R97, R98, R100) -/

/-- `emit e`: append to the events of a step that advances (R11, R100). -/
def State.emit (s : State) (e : Event) : State :=
  match s.lastStep with
  | some (.advanced es) => { s with lastStep := some (.advanced (es ++ [e])) }
  | _ => s

/-- The delay timer's part of `Tick()` (R97). -/
def tickDelay (s : State) : State := if s.dt = 0#8 then s else { s with dt := s.dt - 1#8 }

/-- The sound timer's part of `Tick()`: beep in the tick that takes ST from 1 to 0 (R97, R98, D21). -/
def tickSound (s : State) : State :=
  if s.st = 0#8 then s
  else if s.st = 1#8 then { s.emit .beep with st := 0#8 }
  else { s with st := s.st - 1#8 }

/-- `Tick()` (R97). -/
def tick (s : State) : State := tickSound (tickDelay s)

/-- The end of a step whose instruction has run: the tick runs if the step advances, and not if it is blocked or
faulted (R89, R97). -/
def afterInstruction (s : State) : State :=
  match s.lastStep with
  | some (.advanced _) => tick s
  | _ => s

/-- The same for what a meaning answers. -/
def afterExec : Result → Result
  | .next s => .next (afterInstruction s)
  | .fault f => .fault f
  | .refused r => .refused r

/-! ### Fetch and unknown opcodes (R44, R47) -/

/-- Fetch the opcode at PC, big-endian, at any PC with `PC + 1 <= 0xFFF` (R35, R36, R44). -/
def fetch (s : State) : Except CoreFault Word :=
  if s.pc.toNat + 1 > 0xFFF then .error (.fetchFault s.pc)
  else .ok (joinBytes (s.mem.read s.pc.toNat) (s.mem.read (s.pc.toNat + 1)))

/-- The step of an unknown opcode, before its tick (R47): report it and go on at `PC + 2`. -/
def unknownOpcode (s : State) (op : Word) : State :=
  { s with pc := s.pc + 2#16, lastStep := some (.advanced [.unknownOpcode op]) }

/-- `Step()` (R89) over what runs a decoded instruction: a faulted core has no step; else fetch, decode, run the
instruction or report the unknown opcode, then the tick if the step advances. -/
def stepBy (run : Instr → State → Result) (s : State) : Result :=
  match s.run with
  | .faulted f => .fault (.coreFaulted f)
  | .running =>
    match fetch s with
    | .error f => raise s f
    | .ok w =>
      match decode w with
      | .ok i => afterExec (run i s)
      | .error _ => .next (afterInstruction (unknownOpcode s w))

/-! ### Free draws (R27; logs 3 and 4) -/

/-- `RandomByte()` (R72, D11): a free byte, and the draw counted. -/
def State.drawByte (s : State) : Byte × State := (Config.randomByte s.draws, { s with draws := s.draws + 1 })

/-- `KeyChoice(P)` (R88, D10): a free member of `P`, and the draw counted; `none` when `P` is empty. With one key
pressed nothing is free. -/
def State.drawKey (s : State) (P : List KeyIx) : Option (KeyIx × State) :=
  match P with
  | [] => none
  | [k] => some (k, { s with draws := s.draws + 1 })
  | k :: l :: rest =>
    some ((k :: l :: rest).getD (Config.keyPick s.draws % (rest.length + 2)) k, { s with draws := s.draws + 1 })

end Sys2Proof.Machine
end

