-- ==== Sys2Proof/Machine/Flags.lean ====
section
/-! DEFINITION. Every computation of VF as a flag (10_state.md R16; 42_register_alu.md R60, R67 to R71; 44_display.md R81; 43_index_memory.md R75). -/

namespace Sys2Proof.Machine

/-- A boolean written into a register: 1 for true, 0 for false (R9). -/
def flagByte (b : Bool) : Byte := if b then 1#8 else 0#8

/-- 8XY4: the exact sum passes 255 (R60, R67). -/
def carryFlag (a b : Byte) : Byte := flagByte (decide (a.toNat + b.toNat > 255))

/-- 8XY5 and 8XY7: strictly greater, unsigned; equal operands give 0 (R68, R70; C4). -/
def greaterFlag (a b : Byte) : Byte := flagByte (decide (a.toNat > b.toNat))

/-- 8XY6: bit 0 (R69). -/
def lsbFlag (a : Byte) : Byte := a &&& 1#8

/-- 8XYE: bit 7 (R71). -/
def msbFlag (a : Byte) : Byte := a >>> 7

/-- FX1E under `FX1E_SETS_VF`: the exact sum passes 0xFFF (R75, D8; log 7). -/
def indexFlag (sum : Nat) : Byte := flagByte (decide (sum > 0xFFF))

/-- DXYN: 1 when a pixel was erased; otherwise 0 under `DRAW_CLEARS_VF`, else VF as it was (R81, D12; log 5). -/
def collisionFlag (p : Config.Params) (old : Byte) (hit : Bool) : Byte :=
  if hit then 1#8 else if p.drawClearsVF then 0#8 else old

/-- The shape of 8XY4 to 8XYE (R60, D13; log 11): VF first, then `V[x]` from the registers that write left, so that
with `x = 15` the result is what VF keeps. -/
def flagThenResult (s : State) (flag : Byte) (x : RegIx) (result : State → Byte) : Result :=
  let s1 := s.setV vf flag
  finishNext (s1.setV x (result s1))

end Sys2Proof.Machine
end

