-- ==== Sys2Proof/Machine/Alu.lean ====
section
/-! DEFINITION. Register loads, arithmetic and logic (42_register_alu.md). -/

namespace Sys2Proof.Machine

/-- `6XNN` LD Vx, byte (R61). -/
def execLdImm (x : RegIx) (nn : Byte) (s : State) : Result := finishNext (s.setV x nn)

/-- `7XNN` ADD Vx, byte (R62): modulo 256, no flag. -/
def execAddImm (x : RegIx) (nn : Byte) (s : State) : Result := finishNext (s.setV x (s.getV x + nn))

/-- `8XY0` LD Vx, Vy (R63). -/
def execLdReg (x y : RegIx) (s : State) : Result := finishNext (s.setV x (s.getV y))

/-- `8XY1` OR Vx, Vy (R64): no flag. -/
def execOrReg (x y : RegIx) (s : State) : Result := finishNext (s.setV x (s.getV x ||| s.getV y))

/-- `8XY2` AND Vx, Vy (R65): no flag. -/
def execAndReg (x y : RegIx) (s : State) : Result := finishNext (s.setV x (s.getV x &&& s.getV y))

/-- `8XY3` XOR Vx, Vy (R66): no flag. -/
def execXorReg (x y : RegIx) (s : State) : Result := finishNext (s.setV x (s.getV x ^^^ s.getV y))

/-- `8XY4` ADD Vx, Vy (R67). -/
def execAddReg (x y : RegIx) (s : State) : Result :=
  flagThenResult s (carryFlag (s.getV x) (s.getV y)) x (fun t => t.getV x + t.getV y)

/-- `8XY5` SUB Vx, Vy (R68). -/
def execSub (x y : RegIx) (s : State) : Result :=
  flagThenResult s (greaterFlag (s.getV x) (s.getV y)) x (fun t => t.getV x - t.getV y)

/-- `8XY6` SHR Vx (R69). -/
def execShr (x : RegIx) (s : State) : Result :=
  flagThenResult s (lsbFlag (s.getV x)) x (fun t => t.getV x >>> 1)

/-- `8XY7` SUBN Vx, Vy (R70). -/
def execSubn (x y : RegIx) (s : State) : Result :=
  flagThenResult s (greaterFlag (s.getV y) (s.getV x)) x (fun t => t.getV y - t.getV x)

/-- `8XYE` SHL Vx (R71). -/
def execShl (x : RegIx) (s : State) : Result :=
  flagThenResult s (msbFlag (s.getV x)) x (fun t => t.getV x <<< 1)

/-- `CXNN` RND Vx, byte (R72): the free byte masked by `nn`. -/
def execRnd (x : RegIx) (nn : Byte) (s : State) : Result :=
  finishNext (s.drawByte.2.setV x (s.drawByte.1 &&& nn))

end Sys2Proof.Machine
end

