-- ==== Sys2Proof/Machine/Operands.lean ====
section
/-! DEFINITION. The operand forms: immediates, I + k addresses with their range check, key operands (30_encoding.md R43, 43_index_memory.md R73, 45_keypad_timers.md R82). -/

namespace Sys2Proof.Machine

/-- `zext_16(nnn)` (R43). -/
def zextAddr (nnn : Addr12) : Word := nnn.zeroExtend 16

/-- The effective address `I + k`, an exact number that does not wrap (R32, R73). -/
def effAddr (s : State) (k : Nat) : Nat := s.i.toNat + k

/-- The `count` bytes `M[I]`, `M[I+1]`, ... (R73). -/
def bytesAtI (s : State) (count : Nat) : List Byte := (List.range count).map (fun k => s.mem.read (effAddr s k))

/-- The range check of an access to the `count` bytes at I: the lowest address above 0xFFF, if there is one (R73,
D5). An access to no byte faults never (R81, n = 0). -/
def accessFault (s : State) (count : Nat) : Option CoreFault :=
  if 0 < count ∧ effAddr s (count - 1) > 0xFFF then some (.addressFault (max s.i.toNat 0x1000)) else none

/-- Run an instruction that accesses the `count` bytes at I, or raise AddressFault before any write (R34, R73). -/
def withBytesAtI (s : State) (count : Nat) (body : Result) : Result :=
  match accessFault s count with
  | some f => raise s f
  | none => body

/-- Run an instruction whose key operand is the whole value `b`, or raise KeyIndexFault (R82, D9). -/
def withKey (s : State) (b : Byte) (body : KeyIx → Result) : Result :=
  if h : b.toNat < 16 then body ⟨b.toNat, h⟩ else raise s (.keyIndexFault b)

end Sys2Proof.Machine
end

