-- ==== Sys2Proof/Machine/Display.lean ====
section
/-! DEFINITION. The display: clear and XOR-draw (44_display.md). -/

namespace Sys2Proof.Machine

/-- `00E0` CLS (R80). -/
def execCls (s : State) : Result := finishNext { s with fb := blankPlane, dirty := true }

/-- The pixel a sprite bit lands on: the linear index, wrapped as a whole (R81). -/
def pixelIndex (xv yv : Byte) (row col : Nat) : Nat := (xv.toNat + col + (yv.toNat + row) * 64) % Config.fbSize

/-- The pixels one sprite byte's set bits touch, leftmost first: column 0 is bit 7 (R81). -/
def rowPixels (xv yv : Byte) (row : Nat) (b : Byte) : List Nat :=
  ((List.range 8).filter (fun col => b.getLsbD (7 - col))).map (pixelIndex xv yv row)

/-- The pixels a sprite touches, row by row, the given row first (R81). -/
def spritePixels (xv yv : Byte) (row : Nat) (sprite : List Byte) : List Nat :=
  match sprite with
  | [] => []
  | b :: rest => rowPixels xv yv row b ++ spritePixels xv yv (row + 1) rest

/-- Flip one pixel, and remember whether it was 1 (R81: `FB[p] <- FB[p] XOR 1`; collision). -/
def flipPixel (acc : Plane × Bool) (p : Nat) : Plane × Bool :=
  (Plane.flip acc.1 p, acc.2 || Plane.pixel acc.1 p)

/-- Draw a list of pixels in order: the plane after, and whether any pixel was erased (R81). -/
def paint (fb : Plane) (pixels : List Nat) : Plane × Bool := pixels.foldl flipPixel (fb, false)

/-- `DXYN` under any parameters (R81): operands bound first, the range check, then the painting; `DIRTY` is set
even when nothing changes. -/
def drawWith (p : Config.Params) (x y : RegIx) (n : Nibble) (s : State) : Result :=
  let painted := paint s.fb (spritePixels (s.getV x) (s.getV y) 0 (bytesAtI s n.toNat))
  let t : State := { s with fb := painted.1, dirty := true }
  withBytesAtI s n.toNat (finishNext (t.setV vf (collisionFlag p (s.getV vf) painted.2)))

/-- `DXYN` DRW Vx, Vy, nibble (R81) under this machine's parameters (log 5). -/
def execDrw (x y : RegIx) (n : Nibble) (s : State) : Result := drawWith Config.params x y n s

end Sys2Proof.Machine
end

