-- ==== Sys2Proof/Machine/Flow.lean ====
section
/-! DEFINITION. Control transfer and skips (41_flow.md). -/

namespace Sys2Proof.Machine

/-- `00EE` RET (R52): to the popped call's address plus 2. -/
def execRet (s : State) : Result :=
  match s.pop with
  | none => raise s (.stackUnderflow s.pc)
  | some (r, t) => finish t (r + 2#16)

/-- `1NNN` JP addr (R53). -/
def execJp (nnn : Addr12) (s : State) : Result := finish s (zextAddr nnn)

/-- `2NNN` CALL addr (R54): pushes the call's own address (C11). -/
def execCall (nnn : Addr12) (s : State) : Result :=
  match s.push s.pc with
  | none => raise s (.stackOverflow s.pc)
  | some t => finish t (zextAddr nnn)

/-- `3XNN` SE Vx, byte (R55). -/
def execSeImm (x : RegIx) (nn : Byte) (s : State) : Result := finishSkip s (decide (s.getV x = nn))

/-- `4XNN` SNE Vx, byte (R56). -/
def execSneImm (x : RegIx) (nn : Byte) (s : State) : Result := finishSkip s (decide (s.getV x ≠ nn))

/-- `5XY0` SE Vx, Vy (R57). -/
def execSeReg (x y : RegIx) (s : State) : Result := finishSkip s (decide (s.getV x = s.getV y))

/-- `9XY0` SNE Vx, Vy (R58). -/
def execSneReg (x y : RegIx) (s : State) : Result := finishSkip s (decide (s.getV x ≠ s.getV y))

/-- `BNNN` JP V0, addr (R59): always V0, no masking. -/
def execJpV0 (nnn : Addr12) (s : State) : Result :=
  finish s (BitVec.ofNat 16 ((s.getV 0).toNat + nnn.toNat))

end Sys2Proof.Machine
end

