-- ==== Sys2Proof/Machine/Index.lean ====
section
/-! DEFINITION. The index register and memory transfer (43_index_memory.md). -/

namespace Sys2Proof.Machine

/-- `ANNN` LD I, addr (R74). -/
def execLdI (nnn : Addr12) (s : State) : Result := finishNext { s with i := zextAddr nnn }

/-- `FX1E` under any parameters (R75): the exact sum; the fault of `I_OVERFLOW_POLICY`; the VF write of
`FX1E_SETS_VF`, after the write of I. -/
def addIWith (p : Config.Params) (x : RegIx) (s : State) : Result :=
  let sum := s.i.toNat + (s.getV x).toNat
  if p.iOverflow = .fault ∧ sum > 0xFFFF then raise s (.indexOverflow sum)
  else
    let t : State := { s with i := BitVec.ofNat 16 sum }
    finishNext (if p.fx1eSetsVF then t.setV vf (indexFlag sum) else t)

/-- `FX1E` ADD I, Vx (R75) under this machine's parameters (logs 6 and 7). -/
def execAddIVx (x : RegIx) (s : State) : Result := addIWith Config.params x s

/-- `FX29` LD F, Vx (R76): `V[x]` whole, not masked to a nibble. -/
def execLdFVx (x : RegIx) (s : State) : Result :=
  finishNext { s with i := BitVec.ofNat 16 ((s.getV x).toNat * 5) }

/-- The BCD digits of a byte: hundreds, tens, ones (R77). -/
def bcdDigits (b : Byte) : List Byte :=
  [BitVec.ofNat 8 (b.toNat / 100), BitVec.ofNat 8 (b.toNat / 10 % 10), BitVec.ofNat 8 (b.toNat % 10)]

/-- `FX33` LD B, Vx (R77). -/
def execLdBVx (x : RegIx) (s : State) : Result :=
  withBytesAtI s 3 (finishNext { s with mem := s.mem.writeList (effAddr s 0) (bcdDigits (s.getV x)) })

/-- `FX55` LD [I], Vx (R78): I is unchanged (log 16). -/
def execLdMemVx (x : RegIx) (s : State) : Result :=
  withBytesAtI s (x.val + 1)
    (finishNext { s with mem := s.mem.writeList (effAddr s 0) ((regsUpTo x).map s.getV) })

/-- `for k in 0..x: V[k] <- MemRead(i + k)` (R79). -/
def loadRegs (s : State) (x : RegIx) : State :=
  (regsUpTo x).foldl (fun t k => t.setV k (s.mem.read (effAddr s k.val))) s

/-- `FX65` LD Vx, [I] (R79): I is unchanged (log 16). -/
def execLdVxMem (x : RegIx) (s : State) : Result := withBytesAtI s (x.val + 1) (finishNext (loadRegs s x))

end Sys2Proof.Machine
end

