-- ==== Sys2Proof/Machine/KeysTimers.lean ====
section
/-! DEFINITION. Key skips, timer access and the key wait (45_keypad_timers.md). -/

namespace Sys2Proof.Machine

/-- `EX9E` SKP Vx (R82, R83). -/
def execSkp (x : RegIx) (s : State) : Result := withKey s (s.getV x) (fun k => finishSkip s (s.key k))

/-- `EXA1` SKNP Vx (R82, R84). -/
def execSknp (x : RegIx) (s : State) : Result := withKey s (s.getV x) (fun k => finishSkip s (!s.key k))

/-- `FX07` LD Vx, DT (R85): before this step's tick. -/
def execLdVxDt (x : RegIx) (s : State) : Result := finishNext (s.setV x s.dt)

/-- `FX0A` LD Vx, K (R88): blocked while no key is pressed, else the index of a pressed key. -/
def execLdVxK (x : RegIx) (s : State) : Result :=
  match s.drawKey s.pressed with
  | none => block s
  | some (k, t) => finishNext (t.setV x (BitVec.ofNat 8 k.val))

/-- `FX15` LD DT, Vx (R86): this step's tick then decrements it. -/
def execLdDtVx (x : RegIx) (s : State) : Result := finishNext { s with dt := s.getV x }

/-- `FX18` LD ST, Vx (R87): this step's tick then decrements it. -/
def execLdStVx (x : RegIx) (s : State) : Result := finishNext { s with st := s.getV x }

end Sys2Proof.Machine
end

