-- ==== Sys2Proof/Machine/Step.lean ====
section
/-! DEFINITION. One step, and storing a word where the next fetch reads it (60_exceptions.md R89). -/

namespace Sys2Proof.Machine

/-- `Step()` (R89) of this machine, whose parameters are the defaults (`stepWith` takes any). -/
def step (s : State) : Host.Outcome State Fault Refusal := stepBy exec s

/-- The word `w` of `nbits` bits stored where the next step fetches: `M[PC]` and `M[PC+1]`, high byte first (R35,
R44). Outside memory there is nothing to store to, and the state stays (log 27). -/
def State.withFetchWord (s : State) (nbits w : Nat) : State :=
  if s.pc.toNat + 1 > 0xFFF then s
  else { s with mem := s.mem.writeList s.pc.toNat (wordBytes (BitVec.ofNat 16 (w % 2 ^ nbits))) }

end Sys2Proof.Machine
end

