-- ==== Sys2Proof/Machine/Configured.lean ====
section
/-! DEFINITION. The machine under any parameters of R8 (00_scope.md). Reset and construction under any FONT are in HostActions.lean. -/

namespace Sys2Proof.Machine

/-- `exec` under any parameters: R8's parameters reach an instruction in DXYN (`DRAW_CLEARS_VF`) and FX1E
(`I_OVERFLOW_POLICY`, `FX1E_SETS_VF`) only. -/
def execWith (p : Config.Params) (i : Instr) (s : State) : Result :=
  match i with
  | .drw x y n => drawWith p x y n s
  | .addIVx x => addIWith p x s
  | .cls | .ret | .jp _ | .call _ | .seImm _ _ | .sneImm _ _ | .seReg _ _ | .ldImm _ _ | .addImm _ _ | .ldReg _ _
  | .orReg _ _ | .andReg _ _ | .xorReg _ _ | .addReg _ _ | .sub _ _ | .shr _ | .subn _ _ | .shl _ | .sneReg _ _
  | .ldI _ | .jpV0 _ | .rnd _ _ | .skp _ | .sknp _ | .ldVxDt _ | .ldVxK _ | .ldDtVx _ | .ldStVx _ | .ldFVx _
  | .ldBVx _ | .ldMemVx _ | .ldVxMem _ => exec i s

/-- `Step()` under any parameters (R8, R89). -/
def stepWith (p : Config.Params) (s : State) : Result := stepBy (execWith p) s

end Sys2Proof.Machine
end

