-- ==== Sys2Proof/Machine/HostActions.lean ====
section
/-! DEFINITION. What the host does between steps: WriteKeys, ReadFrame, ConsumeFrame, Reset and Load (60_exceptions.md R102; 70_reset_and_hazards.md R106 to R108). -/

namespace Sys2Proof.Machine

/-- A ROM is refused: longer than 3584 bytes, with its length (R106, R108, D15; log 17). -/
inductive LoadError where
  | tooLong (length : Nat)
  deriving DecidableEq, Repr

/-- `WriteKeys(k0..k15)`: `KEY` only (R102). -/
def writeKeys (keys : Vector Bool 16) (s : State) : State := { s with keys := keys }

/-- `ReadFrame`: the plane and `DIRTY`, no change (R102). -/
def readFrame (s : State) : Plane × Bool := (s.fb, s.dirty)

/-- `ConsumeFrame`: `DIRTY <- false` only (R102). -/
def consumeFrame (s : State) : State := { s with dirty := false }

/-- Construction under any parameters, before the host's first load (R106, R107): memory zeroed, `FONT` installed,
every other element at its reset value. -/
def State.constructed (p : Config.Params) : State := { State.reset with mem := Memory.installFont p.font [] }

/-- `Reset(rom)` under any parameters (R106): every element of the state anew, `FONT` at 0x000 and the ROM at 0x200; a
ROM too long changes nothing. Only the model's count of draws goes on, so that draws after a reset are new ones
(log 22). -/
def hostResetWith (p : Config.Params) (rom : List Byte) (s : State) : Except LoadError State :=
  if romWellFormed rom then
    .ok { State.constructed p with
      mem := (State.constructed p).mem.writeList Config.programBase rom, draws := s.draws }
  else .error (.tooLong rom.length)

/-- `Reset(rom)` of this machine (log 8). -/
def hostReset (rom : List Byte) (s : State) : Except LoadError State := hostResetWith Config.params rom s

/-- `Load(rom)` (R102, R108): the ROM's bytes into memory from 0x200, nothing else; the host's move on construction
only (R107). -/
def hostLoad (rom : List Byte) (s : State) : Except LoadError State :=
  if romWellFormed rom then .ok { s with mem := s.mem.writeList Config.programBase rom }
  else .error (.tooLong rom.length)

/-- The host's moves that can change the state (R102). `ReadFrame` changes nothing. -/
inductive HostAction where
  | writeKeys (keys : Vector Bool 16)
  | readFrame
  | consumeFrame
  | reset (rom : List Byte)
  deriving DecidableEq, Repr

/-- The state after a host move; a refused ROM leaves it as it was (R102, R106). -/
def hostAct (a : HostAction) (s : State) : State :=
  match a with
  | .writeKeys keys => writeKeys keys s
  | .readFrame => s
  | .consumeFrame => consumeFrame s
  | .reset rom =>
    match hostReset rom s with
    | .ok t => t
    | .error _ => s

end Sys2Proof.Machine
end

