-- ==== Sys2Proof/Safety.lean ====
section
/-! DEFINITION. The terms claims use: what a move leaves untouched, the machine invariant, faulted and resting machines, moves and reachable states. -/

namespace Sys2Proof.Machine

/-! ### Frames -/

/-- What an instruction may write besides `PC` and `lastStep`. Everything else stays (`Untouched`). -/
structure Touches where
  /-- General registers that may change. -/
  regs : List RegIx := []
  /-- Addresses stored to. -/
  mem : List Nat := []
  /-- `I` may change. -/
  i : Bool := false
  /-- `SP` and `S` may change. -/
  stack : Bool := false
  /-- `DT` may change. -/
  dt : Bool := false
  /-- `ST` may change. -/
  st : Bool := false
  /-- `FB` and `DIRTY` may change. -/
  display : Bool := false
  /-- The model's count of draws may change. -/
  draws : Bool := false
  deriving DecidableEq, Repr

/-- From `s` to `t` nothing changes but `PC`, `lastStep` and what `w` names. `KEY` and `RUN` never do. -/
def Untouched (w : Touches) (s t : State) : Prop :=
  (∀ r, r ∉ w.regs → t.getV r = s.getV r) ∧
  (∀ a, a ∉ w.mem → t.mem.read a = s.mem.read a) ∧
  (w.i = false → t.i = s.i) ∧
  (w.stack = false → t.sp = s.sp ∧ t.stack = s.stack) ∧
  (w.dt = false → t.dt = s.dt) ∧
  (w.st = false → t.st = s.st) ∧
  (w.display = false → (∀ p, t.pixel p = s.pixel p) ∧ t.dirty = s.dirty) ∧
  (w.draws = false → t.draws = s.draws) ∧
  t.keys = s.keys ∧
  t.run = s.run

/-- The step completed with no event from the instruction itself, and `PC` got the given value (R49, R89). -/
def AdvancedTo (target : Word) (t : State) : Prop := t.pc = target ∧ t.lastStep = some (.advanced [])

/-- What each instruction may write, from the writers' columns of R14 and R16 and the accesses of R37. -/
def touches (i : Instr) (s : State) : Touches :=
  match i with
  | .cls => { display := true }
  | .ret | .call _ => { stack := true }
  | .jp _ | .jpV0 _ | .seImm _ _ | .sneImm _ _ | .seReg _ _ | .sneReg _ _ | .skp _ | .sknp _ => {}
  | .ldImm x _ | .addImm x _ | .ldReg x _ | .orReg x _ | .andReg x _ | .xorReg x _ | .ldVxDt x => { regs := [x] }
  | .addReg x _ | .sub x _ | .shr x | .subn x _ | .shl x => { regs := [x, vf] }
  | .rnd x _ | .ldVxK x => { regs := [x], draws := true }
  | .ldI _ | .addIVx _ | .ldFVx _ => { i := true }
  | .drw _ _ _ => { regs := [vf], display := true }
  | .ldDtVx _ => { dt := true }
  | .ldStVx _ => { st := true }
  | .ldBVx _ => { mem := (List.range 3).map (effAddr s) }
  | .ldMemVx x => { mem := (List.range (x.val + 1)).map (effAddr s) }
  | .ldVxMem x => { regs := regsUpTo x }

/-- A set bit of the sprite of `DXYN` lands on pixel `p` (R81). -/
def SpriteLands (s : State) (x y : RegIx) (n : Nibble) (p : Nat) : Prop :=
  ∃ row col, row < n.toNat ∧ col < 8 ∧ (s.mem.read (effAddr s row)).getLsbD (7 - col) = true ∧
    p = ((s.getV x).toNat + col + ((s.getV y).toNat + row) * 64) % 2048

/-! ### Faulted and resting machines (R26, R92, R112) -/

/-- `RUN = Running`. -/
def State.Running (s : State) : Prop := s.run = .running

/-- `RUN = Faulted(f)`. -/
def State.FaultedWith (s : State) (f : CoreFault) : Prop := s.run = .faulted f

/-- The state `s`, in which the fault `f` has been recorded and nothing else has changed but the report to the host
(R92). -/
def State.recordFault (s : State) (f : CoreFault) : State :=
  { s with run := .faulted f, lastStep := some (.faulted f) }

/-- The word at `PC`, where there is one, decodes to `i`. -/
def State.NextIs (s : State) (i : Instr) : Prop :=
  s.pc.toNat + 1 ≤ 0xFFF ∧ decode (joinBytes (s.mem.read s.pc.toNat) (s.mem.read (s.pc.toNat + 1))) = .ok i

/-- At rest (R112 b, D22): running, and the word at `PC` is a jump to itself. -/
def State.AtRest (s : State) : Prop := s.Running ∧ ∃ nnn, s.NextIs (.jp nnn) ∧ zextAddr nnn = s.pc

/-- The run is over by the core itself: faulted or at rest (R112 a and b). -/
def State.Over (s : State) : Prop := (∃ f, s.FaultedWith f) ∨ s.AtRest

/-- The conditions of R91, instruction by instruction: the instruction `i` run in `s` raises `f`. -/
def RaisesIn (i : Instr) (s : State) (f : CoreFault) : Prop :=
  match i with
  | .ret => s.sp = 0 ∧ f = .stackUnderflow s.pc
  | .call _ => s.sp = 16 ∧ f = .stackOverflow s.pc
  | .skp x | .sknp x => 15 < (s.getV x).toNat ∧ f = .keyIndexFault (s.getV x)
  | .addIVx x =>
    0xFFFF < s.i.toNat + (s.getV x).toNat ∧ f = .indexOverflow (s.i.toNat + (s.getV x).toNat)
  | .ldBVx _ => 0xFFF < effAddr s 2 ∧ f = .addressFault (max s.i.toNat 0x1000)
  | .ldMemVx x | .ldVxMem x => 0xFFF < effAddr s x.val ∧ f = .addressFault (max s.i.toNat 0x1000)
  | .drw _ _ n => n ≠ 0#4 ∧ 0xFFF < effAddr s (n.toNat - 1) ∧ f = .addressFault (max s.i.toNat 0x1000)
  | .cls | .jp _ | .seImm _ _ | .sneImm _ _ | .seReg _ _ | .ldImm _ _ | .addImm _ _ | .ldReg _ _ | .orReg _ _
  | .andReg _ _ | .xorReg _ _ | .addReg _ _ | .sub _ _ | .shr _ | .subn _ _ | .shl _ | .sneReg _ _ | .ldI _
  | .jpV0 _ | .rnd _ _ | .ldVxDt _ | .ldVxK _ | .ldDtVx _ | .ldStVx _ | .ldFVx _ => False

/-- The whole of R91's table: the step of `s` raises `f`. -/
def StepRaises (s : State) (f : CoreFault) : Prop :=
  (0xFFF < s.pc.toNat + 1 ∧ f = .fetchFault s.pc) ∨ ∃ i, s.NextIs i ∧ RaisesIn i s f

/-- Consecutive steps `s 0`, `s 1`, ..., `s n`, each of which advances (R89). -/
def AdvancingRun (n : Nat) (s : Nat → State) : Prop :=
  ∀ k, k < n → step (s k) = .next (s (k + 1)) ∧ ∃ es, (s (k + 1)).lastStep = some (.advanced es)

/-- The step that led to this state emitted `e` (R100). -/
def State.Emitted (s : State) (e : Event) : Prop := ∃ es, s.lastStep = some (.advanced es) ∧ e ∈ es

/-! ### The invariant -/

/-- What every reachable state meets: memory in its canonical form, `PC` at most 0x10FE and every occupied stack
slot at most 0xFFE (R18), and `RUN` in agreement with the latest report (R26, R89). -/
structure State.Inv (s : State) : Prop where
  memWf : s.mem.wf = true
  pcBound : s.pc.toNat ≤ 0x10FE
  stackBound : ∀ k : Fin 16, k.val < s.sp.val → (s.stack.get k).toNat ≤ 0xFFE
  report : ∀ f, s.run = .faulted f ↔ s.lastStep = some (.faulted f)

/-! ### Moves (R102, R103) -/

/-- A move of the two agents: the core's step or one of the host's transactions (R103). -/
inductive Move where
  | step
  | host (a : HostAction)
  deriving DecidableEq, Repr

/-- The state after a move, where there is one: a faulted core has no step (R89). -/
def Move.next (m : Move) (s : State) : Option State :=
  match m with
  | .step =>
    match Machine.step s with
    | .next t => some t
    | .fault _ => none
    | .refused _ => none
  | .host a => some (hostAct a s)

/-- The states of a run: built from a ROM the loader takes, then any interleaving of the two agents' moves (R103,
R107). -/
inductive Reachable : State → Prop where
  | load (rom : List Byte) (s : State) : hostLoad rom State.reset = .ok s → Reachable s
  | move (m : Move) (s t : State) : Reachable s → m.next s = some t → Reachable t

end Sys2Proof.Machine
end

