-- ==== Sys2Proof/Certificates/Slice0/Obligations.lean ====
section
/-! DEFINITION. The statements for the provers, each over the model's own names; docstrings name the rule of spec/. -/

open Sys2Proof Sys2Proof.Machine

/-! ### Encoding -/

/-- Words written out nibble by nibble from the spec's patterns, at least one of each family 0x0 to 0xF, decode to their
instructions, and two words that no pattern has are unknown (30_encoding.md 3). -/
def Obligations.WordsFromThePatternsDecode : Prop :=
  decode 0x00E0#16 = .ok .cls ∧ decode 0x00EE#16 = .ok .ret ∧ decode 0x1ABC#16 = .ok (.jp 0xABC#12) ∧
  decode 0x2300#16 = .ok (.call 0x300#12) ∧ decode 0x3342#16 = .ok (.seImm 3 0x42#8) ∧
  decode 0x4B6D#16 = .ok (.sneImm 11 0x6D#8) ∧ decode 0x5120#16 = .ok (.seReg 1 2) ∧
  decode 0x6142#16 = .ok (.ldImm 1 0x42#8) ∧ decode 0x7205#16 = .ok (.addImm 2 0x05#8) ∧
  decode 0x8014#16 = .ok (.addReg 0 1) ∧ decode 0x80AE#16 = .ok (.shl 0) ∧
  decode 0x9120#16 = .ok (.sneReg 1 2) ∧ decode 0xA2F0#16 = .ok (.ldI 0x2F0#12) ∧
  decode 0xBF01#16 = .ok (.jpV0 0xF01#12) ∧ decode 0xC10F#16 = .ok (.rnd 1 0x0F#8) ∧
  decode 0xD0F1#16 = .ok (.drw 0 15 1#4) ∧
  decode 0xE19E#16 = .ok (.skp 1) ∧ decode 0xF265#16 = .ok (.ldVxMem 2) ∧
  decode 0x01E0#16 = .error (.unknownOpcode 0x01E0#16) ∧ decode 0x5001#16 = .error (.unknownOpcode 0x5001#16)

/-- Decoding an encoded instruction gives it back, for all 34 instructions and every operand. -/
def Obligations.DecodeOfEncodeIsTheInstruction : Prop :=
  ∀ i : Instr, decode (encode i) = .ok i

/-- Encoding what a word decodes to gives the word back, but for the nibble its instruction ignores. -/
def Obligations.EncodeOfDecodeIsTheWord : Prop :=
  ∀ (w : Word) (i : Instr), decode w = .ok i → encode i = clearIgnored w

/-- Decode against the opcode table's masks and patterns: a decoded word fits a row of the decoded mnemonic, a word
is unknown exactly when no row fits it, and no word fits two rows. -/
def Obligations.DecodeFollowsTheOpcodeTable : Prop :=
  (∀ (w : Word) (i : Instr), decode w = .ok i →
    ∃ r ∈ opcodeTable, r.mnemonic = i.mnemonic ∧ r.fits w = true) ∧
  (∀ w : Word, decode w = .error (.unknownOpcode w) ↔ wordWellFormed w = false) ∧
  (∀ (w : Word) (r r' : Row), r ∈ opcodeTable → r' ∈ opcodeTable → r.fits w = true → r'.fits w = true → r = r')

/-! ### Control flow (41_flow.md) -/

/-- R53, `1NNN`: PC becomes nnn, with no flag, no exception and nothing else changed. -/
def Obligations.JumpSetsPc : Prop :=
  ∀ nnn : Addr12, decode (encNNN 0x1#4 nnn) = .ok (.jp nnn) ∧
    ∀ s : State, ∃ t, exec (.jp nnn) s = .next t ∧ AdvancedTo (BitVec.ofNat 16 nnn.toNat) t ∧ Untouched {} s t

/-- R54, `2NNN`: pushes the call's own address and jumps; at SP = 16 it raises StackOverflow(PC) and changes
nothing else (the spec's decision D3). -/
def Obligations.CallPushesItsOwnAddress : Prop :=
  ∀ nnn : Addr12, decode (encNNN 0x2#4 nnn) = .ok (.call nnn) ∧
    (∀ s : State, s.sp.val < 16 → ∃ t, exec (.call nnn) s = .next t ∧
      AdvancedTo (BitVec.ofNat 16 nnn.toNat) t ∧ t.sp.val = s.sp.val + 1 ∧
      (∀ k : Fin 16, t.stack.get k = if k.val = s.sp.val then s.pc else s.stack.get k) ∧
      Untouched { stack := true } s t) ∧
    (∀ s : State, s.sp.val = 16 → exec (.call nnn) s = .next (s.recordFault (.stackOverflow s.pc)))

/-- R52, `00EE`: pops and goes to the popped address plus 2, leaving the slot as it was; at SP = 0 it raises
StackUnderflow(PC) and changes nothing else (the spec's decision D4). -/
def Obligations.ReturnResumesAfterTheCall : Prop :=
  decode 0x00EE#16 = .ok .ret ∧
  (∀ (s : State) (k : Fin 16), s.sp.val = k.val + 1 → ∃ t, exec .ret s = .next t ∧
    AdvancedTo (s.stack.get k + 2#16) t ∧ t.sp.val = k.val ∧ t.stack = s.stack ∧ Untouched { stack := true } s t) ∧
  (∀ s : State, s.sp.val = 0 → exec .ret s = .next (s.recordFault (.stackUnderflow s.pc)))

/-- R55 to R58: the four compare-and-skip instructions go on at PC + 4 when their condition holds and at PC + 2
otherwise, and change nothing else. -/
def Obligations.CompareSkipsAdvanceByFourOrTwo : Prop :=
  (∀ (x : RegIx) (nn : Byte), decode (encXNN 0x3#4 x nn) = .ok (.seImm x nn) ∧
    decode (encXNN 0x4#4 x nn) = .ok (.sneImm x nn)) ∧
  (∀ x y : RegIx, decode (encXYN 0x5#4 x (nibbleOf y) 0#4) = .ok (.seReg x y) ∧
    decode (encXYN 0x9#4 x (nibbleOf y) 0#4) = .ok (.sneReg x y)) ∧
  (∀ w : Word, (family w = 0x5#4 ∨ family w = 0x9#4) → nibbleN w ≠ 0#4 → decode w = .error (.unknownOpcode w)) ∧
  (∀ (x : RegIx) (nn : Byte) (s : State),
    (∃ t, exec (.seImm x nn) s = .next t ∧
      AdvancedTo (if s.getV x = nn then s.pc + 4#16 else s.pc + 2#16) t ∧ Untouched {} s t) ∧
    (∃ t, exec (.sneImm x nn) s = .next t ∧
      AdvancedTo (if s.getV x ≠ nn then s.pc + 4#16 else s.pc + 2#16) t ∧ Untouched {} s t)) ∧
  (∀ (x y : RegIx) (s : State),
    (∃ t, exec (.seReg x y) s = .next t ∧
      AdvancedTo (if s.getV x = s.getV y then s.pc + 4#16 else s.pc + 2#16) t ∧ Untouched {} s t) ∧
    (∃ t, exec (.sneReg x y) s = .next t ∧
      AdvancedTo (if s.getV x ≠ s.getV y then s.pc + 4#16 else s.pc + 2#16) t ∧ Untouched {} s t))

/-- R59, `BNNN`: PC becomes V0 plus nnn, always V0, with no masking; nothing else changes. -/
def Obligations.IndexedJumpAddsVZero : Prop :=
  ∀ nnn : Addr12, decode (encNNN 0xB#4 nnn) = .ok (.jpV0 nnn) ∧
    ∀ s : State, ∃ t, exec (.jpV0 nnn) s = .next t ∧ t.pc.toNat = (s.getV 0).toNat + nnn.toNat ∧
      t.pc.toNat ≤ 0x10FE ∧ t.lastStep = some (.advanced []) ∧ Untouched {} s t

/-! ### Registers (42_register_alu.md) -/

/-- R61 to R63, `6XNN`, `7XNN`, `8XY0`: the destination's new value; no flag (VF changes only as the destination). -/
def Obligations.LoadsAndImmediateAddWriteOneRegister : Prop :=
  (∀ (x : RegIx) (nn : Byte), decode (encXNN 0x6#4 x nn) = .ok (.ldImm x nn) ∧
    decode (encXNN 0x7#4 x nn) = .ok (.addImm x nn)) ∧
  (∀ x y : RegIx, decode (encXYN 0x8#4 x (nibbleOf y) 0x0#4) = .ok (.ldReg x y)) ∧
  (∀ (x : RegIx) (nn : Byte) (s : State),
    (∃ t, exec (.ldImm x nn) s = .next t ∧ AdvancedTo (s.pc + 2#16) t ∧ t.getV x = nn ∧
      Untouched { regs := [x] } s t) ∧
    (∃ t, exec (.addImm x nn) s = .next t ∧ AdvancedTo (s.pc + 2#16) t ∧
      (t.getV x).toNat = ((s.getV x).toNat + nn.toNat) % 256 ∧ Untouched { regs := [x] } s t)) ∧
  (∀ (x y : RegIx) (s : State), ∃ t, exec (.ldReg x y) s = .next t ∧ AdvancedTo (s.pc + 2#16) t ∧
    t.getV x = s.getV y ∧ Untouched { regs := [x] } s t)

/-- R64 to R66, `8XY1`, `8XY2`, `8XY3`: the bitwise results, bit by bit, with VF unchanged unless it is the
destination. -/
def Obligations.LogicWritesOneRegister : Prop :=
  ∀ x y : RegIx,
    decode (encXYN 0x8#4 x (nibbleOf y) 0x1#4) = .ok (.orReg x y) ∧
    decode (encXYN 0x8#4 x (nibbleOf y) 0x2#4) = .ok (.andReg x y) ∧
    decode (encXYN 0x8#4 x (nibbleOf y) 0x3#4) = .ok (.xorReg x y) ∧
    ∀ s : State,
      (∃ t, exec (.orReg x y) s = .next t ∧ AdvancedTo (s.pc + 2#16) t ∧
        (∀ b, (t.getV x).getLsbD b = ((s.getV x).getLsbD b || (s.getV y).getLsbD b)) ∧
        Untouched { regs := [x] } s t) ∧
      (∃ t, exec (.andReg x y) s = .next t ∧ AdvancedTo (s.pc + 2#16) t ∧
        (∀ b, (t.getV x).getLsbD b = ((s.getV x).getLsbD b && (s.getV y).getLsbD b)) ∧
        Untouched { regs := [x] } s t) ∧
      (∃ t, exec (.xorReg x y) s = .next t ∧ AdvancedTo (s.pc + 2#16) t ∧
        (∀ b, (t.getV x).getLsbD b = ((s.getV x).getLsbD b ^^ (s.getV y).getLsbD b)) ∧
        Untouched { regs := [x] } s t)

/-- R67, `8XY4`: VF gets the carry of the old values, then V[x] the sum of the registers that write left, modulo 256
(the spec's decision D13 for x = 15 and y = 15). -/
def Obligations.AddSetsCarryThenSum : Prop :=
  ∀ x y : RegIx, decode (encXYN 0x8#4 x (nibbleOf y) 0x4#4) = .ok (.addReg x y) ∧
    ∀ s : State,
      let carry : Nat := if (s.getV x).toNat + (s.getV y).toNat > 255 then 1 else 0
      let after : RegIx → Nat := fun r => if r = vf then carry else (s.getV r).toNat
      ∃ t, exec (.addReg x y) s = .next t ∧ AdvancedTo (s.pc + 2#16) t ∧
        (t.getV x).toNat = (after x + after y) % 256 ∧ (x ≠ vf → (t.getV vf).toNat = carry) ∧
        Untouched { regs := [x, vf] } s t

/-- R68 and R70, `8XY5` and `8XY7`: VF is 1 exactly when the minuend is strictly greater, then V[x] is the difference
of the registers that write left, modulo 256 (D13 for x = 15 and y = 15). -/
def Obligations.SubtractSetsStrictFlagThenDifference : Prop :=
  ∀ x y : RegIx,
    decode (encXYN 0x8#4 x (nibbleOf y) 0x5#4) = .ok (.sub x y) ∧
    decode (encXYN 0x8#4 x (nibbleOf y) 0x7#4) = .ok (.subn x y) ∧
    ∀ s : State,
      (let flag : Nat := if (s.getV x).toNat > (s.getV y).toNat then 1 else 0
       let after : RegIx → Nat := fun r => if r = vf then flag else (s.getV r).toNat
       ∃ t, exec (.sub x y) s = .next t ∧ AdvancedTo (s.pc + 2#16) t ∧
        (t.getV x).toNat = (after x + 256 - after y) % 256 ∧ (x ≠ vf → (t.getV vf).toNat = flag) ∧
        Untouched { regs := [x, vf] } s t) ∧
      (let flag : Nat := if (s.getV y).toNat > (s.getV x).toNat then 1 else 0
       let after : RegIx → Nat := fun r => if r = vf then flag else (s.getV r).toNat
       ∃ t, exec (.subn x y) s = .next t ∧ AdvancedTo (s.pc + 2#16) t ∧
        (t.getV x).toNat = (after y + 256 - after x) % 256 ∧ (x ≠ vf → (t.getV vf).toNat = flag) ∧
        Untouched { regs := [x, vf] } s t)

/-- R69 and R71, `8XY6` and `8XYE`, for any Y: VF gets the bit shifted out of the old V[x], then V[x] is shifted as
that write left it (D13 for x = 15). -/
def Obligations.ShiftsCaptureTheBitThenShift : Prop :=
  ∀ x : RegIx,
    (∀ y : Nibble, decode (encXYN 0x8#4 x y 0x6#4) = .ok (.shr x) ∧
      decode (encXYN 0x8#4 x y 0xE#4) = .ok (.shl x)) ∧
    ∀ s : State,
      (let bit : Nat := (s.getV x).toNat % 2
       ∃ t, exec (.shr x) s = .next t ∧ AdvancedTo (s.pc + 2#16) t ∧
        (t.getV x).toNat = (if x = vf then bit else (s.getV x).toNat) / 2 ∧
        (x ≠ vf → (t.getV vf).toNat = bit) ∧ Untouched { regs := [x, vf] } s t) ∧
      (let bit : Nat := (s.getV x).toNat / 128
       ∃ t, exec (.shl x) s = .next t ∧ AdvancedTo (s.pc + 2#16) t ∧
        (t.getV x).toNat = (if x = vf then bit else (s.getV x).toNat) * 2 % 256 ∧
        (x ≠ vf → (t.getV vf).toNat = bit) ∧ Untouched { regs := [x, vf] } s t)

/-- R72, `CXNN`: V[x] becomes the drawn byte AND nn, whatever the draw is; bits outside nn are 0. Each execution counts
one draw, so the next one takes another free byte (D11, log 3). -/
def Obligations.RandomIsMaskedByTheImmediate : Prop :=
  ∀ (x : RegIx) (nn : Byte), decode (encXNN 0xC#4 x nn) = .ok (.rnd x nn) ∧
    ∀ s : State, ∃ t, exec (.rnd x nn) s = .next t ∧ AdvancedTo (s.pc + 2#16) t ∧
      t.getV x = Config.randomByte s.draws &&& nn ∧ (∀ b, nn.getLsbD b = false → (t.getV x).getLsbD b = false) ∧
      t.draws = s.draws + 1 ∧ Untouched { regs := [x], draws := true } s t

/-! ### Index and memory (43_index_memory.md) -/

/-- R74 and R76, `ANNN` and `FX29`: I becomes nnn, or five times the whole of V[x]. -/
def Obligations.IndexLoadsSetI : Prop :=
  (∀ nnn : Addr12, decode (encNNN 0xA#4 nnn) = .ok (.ldI nnn) ∧
    ∀ s : State, ∃ t, exec (.ldI nnn) s = .next t ∧ AdvancedTo (s.pc + 2#16) t ∧ t.i.toNat = nnn.toNat ∧
      Untouched { i := true } s t) ∧
  (∀ x : RegIx, decode (encXNN 0xF#4 x 0x29#8) = .ok (.ldFVx x) ∧
    ∀ s : State, ∃ t, exec (.ldFVx x) s = .next t ∧ AdvancedTo (s.pc + 2#16) t ∧
      t.i.toNat = (s.getV x).toNat * 5 ∧ Untouched { i := true } s t)

/-- R75, `FX1E`: I becomes the exact sum, VF unchanged; past 0xFFFF the default policy raises IndexOverflow(s) and
changes nothing else (D7). Under other parameters the sum wraps (`wrap16`) or VF gets the 0xFFF test (D8). -/
def Obligations.AddToIndexIsExactOrOverflows : Prop :=
  ∀ x : RegIx, decode (encXNN 0xF#4 x 0x1E#8) = .ok (.addIVx x) ∧
    ∀ s : State,
      let sum := s.i.toNat + (s.getV x).toNat
      (sum ≤ 0xFFFF → ∃ t, exec (.addIVx x) s = .next t ∧ AdvancedTo (s.pc + 2#16) t ∧ t.i.toNat = sum ∧
        Untouched { i := true } s t) ∧
      (0xFFFF < sum → exec (.addIVx x) s = .next (s.recordFault (.indexOverflow sum))) ∧
      (∀ p : Config.Params,
        (p.iOverflow = .wrap16 ∨ sum ≤ 0xFFFF → ∃ t, addIWith p x s = .next t ∧ AdvancedTo (s.pc + 2#16) t ∧
          t.i.toNat = sum % 65536 ∧
          t.getV vf = (if p.fx1eSetsVF then (if 0xFFF < sum then 1#8 else 0#8) else s.getV vf) ∧
          Untouched { i := true, regs := [vf] } s t) ∧
        (p.iOverflow = .fault → 0xFFFF < sum → addIWith p x s = .next (s.recordFault (.indexOverflow sum))))

/-- R77, `FX33`: the hundreds, tens and ones of V[x] at I, I+1, I+2, and no other byte; when I + 2 > 0xFFF it raises
AddressFault with the lowest bad address and writes nothing (D5). -/
def Obligations.BcdStoresThreeDigits : Prop :=
  ∀ x : RegIx, decode (encXNN 0xF#4 x 0x33#8) = .ok (.ldBVx x) ∧
    ∀ s : State,
      (effAddr s 2 ≤ 0xFFF → ∃ t, exec (.ldBVx x) s = .next t ∧ AdvancedTo (s.pc + 2#16) t ∧
        (t.mem.read (effAddr s 0)).toNat = (s.getV x).toNat / 100 ∧
        (t.mem.read (effAddr s 1)).toNat = (s.getV x).toNat / 10 % 10 ∧
        (t.mem.read (effAddr s 2)).toNat = (s.getV x).toNat % 10 ∧
        Untouched { mem := [effAddr s 0, effAddr s 1, effAddr s 2] } s t) ∧
      (0xFFF < effAddr s 2 → exec (.ldBVx x) s = .next (s.recordFault (.addressFault (max s.i.toNat 0x1000))))

/-- R78, `FX55`: V0 to V[x] stored at I to I + x, no other byte, I unchanged (D14); when I + x > 0xFFF it raises
AddressFault and writes nothing (D5). -/
def Obligations.StoreRegistersWritesConsecutiveBytes : Prop :=
  ∀ x : RegIx, decode (encXNN 0xF#4 x 0x55#8) = .ok (.ldMemVx x) ∧
    ∀ s : State,
      (effAddr s x.val ≤ 0xFFF → ∃ t, exec (.ldMemVx x) s = .next t ∧ AdvancedTo (s.pc + 2#16) t ∧
        (∀ k : RegIx, k ≤ x → t.mem.read (effAddr s k.val) = s.getV k) ∧
        Untouched { mem := (List.range (x.val + 1)).map (effAddr s) } s t) ∧
      (0xFFF < effAddr s x.val →
        exec (.ldMemVx x) s = .next (s.recordFault (.addressFault (max s.i.toNat 0x1000))))

/-- R79, `FX65`: V0 to V[x] loaded from I to I + x, no other register, I unchanged (D14); when I + x > 0xFFF it raises
AddressFault and writes nothing (D5). -/
def Obligations.LoadRegistersReadsConsecutiveBytes : Prop :=
  ∀ x : RegIx, decode (encXNN 0xF#4 x 0x65#8) = .ok (.ldVxMem x) ∧
    ∀ s : State,
      (effAddr s x.val ≤ 0xFFF → ∃ t, exec (.ldVxMem x) s = .next t ∧ AdvancedTo (s.pc + 2#16) t ∧
        (∀ k : RegIx, k ≤ x → t.getV k = s.mem.read (effAddr s k.val)) ∧
        (∀ k : RegIx, x < k → t.getV k = s.getV k) ∧ Untouched { regs := regsUpTo x } s t) ∧
      (0xFFF < effAddr s x.val →
        exec (.ldVxMem x) s = .next (s.recordFault (.addressFault (max s.i.toNat 0x1000))))

/-! ### Display (44_display.md) -/

/-- R80, `00E0`: every pixel 0 and DIRTY true, even when the plane was already 0; VF unchanged. -/
def Obligations.ClearScreenZeroesThePlane : Prop :=
  decode 0x00E0#16 = .ok .cls ∧
  ∀ s : State, ∃ t, exec .cls s = .next t ∧ AdvancedTo (s.pc + 2#16) t ∧ (∀ p, t.pixel p = false) ∧
    t.dirty = true ∧ Untouched { display := true } s t

/-- R81, `DXYN`: each pixel a set sprite bit lands on is flipped and no other; VF is 1 exactly when one of them was 1
and else 0; DIRTY is set; a sprite row above 0xFFF raises AddressFault and changes nothing (D5). With
`DRAW_CLEARS_VF` false the draw differs only in keeping VF when nothing was erased (D12). -/
def Obligations.DrawFlipsTheSpritePixels : Prop :=
  ∀ (x y : RegIx) (n : Nibble), decode (encXYN 0xD#4 x (nibbleOf y) n) = .ok (.drw x y n) ∧
    ∀ s : State,
      (n = 0#4 ∨ effAddr s (n.toNat - 1) ≤ 0xFFF →
        ∃ t, exec (.drw x y n) s = .next t ∧ AdvancedTo (s.pc + 2#16) t ∧
          (∀ p, t.pixel p = true ↔ ¬ (s.pixel p = true ↔ SpriteLands s x y n p)) ∧
          ((∃ p, SpriteLands s x y n p ∧ s.pixel p = true) → t.getV vf = 1#8) ∧
          ((¬ ∃ p, SpriteLands s x y n p ∧ s.pixel p = true) → t.getV vf = 0#8) ∧
          t.dirty = true ∧ Untouched { regs := [vf], display := true } s t ∧
          (∀ p : Config.Params, p.drawClearsVF = false →
            ∃ u, drawWith p x y n s = .next u ∧ AdvancedTo (s.pc + 2#16) u ∧ (∀ q, u.pixel q = t.pixel q) ∧
              ((∃ q, SpriteLands s x y n q ∧ s.pixel q = true) → u.getV vf = 1#8) ∧
              ((¬ ∃ q, SpriteLands s x y n q ∧ s.pixel q = true) → u.getV vf = s.getV vf) ∧
              u.dirty = true ∧ Untouched { regs := [vf], display := true } s u)) ∧
      (n ≠ 0#4 → 0xFFF < effAddr s (n.toNat - 1) →
        exec (.drw x y n) s = .next (s.recordFault (.addressFault (max s.i.toNat 0x1000))))

/-- Drawing the same sprite twice at the same coordinates restores the plane, and the second draw sets VF exactly when
the first one set a pixel (the source's example in 44_display.md R81, for every plane and sprite). -/
def Obligations.DrawingTwiceRestoresThePlane : Prop :=
  ∀ (x y : RegIx) (n : Nibble) (s : State), x ≠ vf → y ≠ vf →
    (n = 0#4 ∨ effAddr s (n.toNat - 1) ≤ 0xFFF) →
    ∃ t u, exec (.drw x y n) s = .next t ∧ exec (.drw x y n) t = .next u ∧ (∀ p, u.pixel p = s.pixel p) ∧
      (u.getV vf = 1#8 ↔ ∃ p, SpriteLands s x y n p ∧ s.pixel p = false)

/-! ### Keypad and timers (45_keypad_timers.md) -/

/-- R82 to R84, `EX9E` and `EXA1`: skip on the key V[x] names, pressed or not; V[x] above 15 raises KeyIndexFault and
changes nothing else (D9). -/
def Obligations.KeySkipsTestTheNamedKey : Prop :=
  ∀ x : RegIx,
    decode (encXNN 0xE#4 x 0x9E#8) = .ok (.skp x) ∧ decode (encXNN 0xE#4 x 0xA1#8) = .ok (.sknp x) ∧
    ∀ s : State,
      (∀ k : KeyIx, (s.getV x).toNat = k.val →
        (∃ t, exec (.skp x) s = .next t ∧
          AdvancedTo (if s.key k = true then s.pc + 4#16 else s.pc + 2#16) t ∧ Untouched {} s t) ∧
        (∃ t, exec (.sknp x) s = .next t ∧
          AdvancedTo (if s.key k = false then s.pc + 4#16 else s.pc + 2#16) t ∧ Untouched {} s t)) ∧
      (15 < (s.getV x).toNat →
        exec (.skp x) s = .next (s.recordFault (.keyIndexFault (s.getV x))) ∧
        exec (.sknp x) s = .next (s.recordFault (.keyIndexFault (s.getV x))))

/-- R85 to R87, `FX07`, `FX15`, `FX18`: the register or timer written, and what the same step's tick then leaves: FX07
reads DT as the previous step left it, a timer written v is v - 1 (or 0) after the step, and only FX18 of 1 beeps in
its own step. -/
def Obligations.TimerAccessPrecedesTheTick : Prop :=
  ∀ x : RegIx,
    decode (encXNN 0xF#4 x 0x07#8) = .ok (.ldVxDt x) ∧ decode (encXNN 0xF#4 x 0x15#8) = .ok (.ldDtVx x) ∧
    decode (encXNN 0xF#4 x 0x18#8) = .ok (.ldStVx x) ∧
    ∀ s : State,
      (∃ t, exec (.ldVxDt x) s = .next t ∧ AdvancedTo (s.pc + 2#16) t ∧ t.getV x = s.dt ∧
        Untouched { regs := [x] } s t) ∧
      (∃ t, exec (.ldDtVx x) s = .next t ∧ AdvancedTo (s.pc + 2#16) t ∧ t.dt = s.getV x ∧
        Untouched { dt := true } s t) ∧
      (∃ t, exec (.ldStVx x) s = .next t ∧ AdvancedTo (s.pc + 2#16) t ∧ t.st = s.getV x ∧
        Untouched { st := true } s t) ∧
      (s.Running → s.NextIs (.ldVxDt x) →
        ∃ t, step s = .next t ∧ t.getV x = s.dt ∧ t.dt.toNat = s.dt.toNat - 1) ∧
      (s.Running → s.NextIs (.ldDtVx x) → ∃ t, step s = .next t ∧ t.dt.toNat = (s.getV x).toNat - 1) ∧
      (s.Running → s.NextIs (.ldStVx x) → ∃ t, step s = .next t ∧ t.st.toNat = (s.getV x).toNat - 1 ∧
        t.lastStep = some (.advanced (if s.getV x = 1#8 then [.beep] else [])))

/-- R88, `FX0A`: with no key pressed the step is Blocked and nothing changes, PC and timers included; otherwise V[x]
becomes the index of a pressed key, any of them, and one draw is counted (D10, log 4). -/
def Obligations.KeyWaitBlocksUntilAKeyIsPressed : Prop :=
  ∀ x : RegIx, decode (encXNN 0xF#4 x 0x0A#8) = .ok (.ldVxK x) ∧
    ∀ s : State,
      ((∀ k, s.key k = false) →
        exec (.ldVxK x) s = .next { s with lastStep := some .blocked } ∧
        (s.Running → s.NextIs (.ldVxK x) → step s = .next { s with lastStep := some .blocked })) ∧
      ((∃ k, s.key k = true) → ∃ t, ∃ k : KeyIx, exec (.ldVxK x) s = .next t ∧ AdvancedTo (s.pc + 2#16) t ∧
        s.key k = true ∧ (t.getV x).toNat = k.val ∧ t.draws = s.draws + 1 ∧
        Untouched { regs := [x], draws := true } s t)

/-! ### The step (30_encoding.md, 60_exceptions.md) -/

/-- R44: the fetch gives M[PC] in bits 15-8 and M[PC+1] in bits 7-0 at any PC with PC + 1 <= 0xFFF, and raises
FetchFault(PC) otherwise (D6). -/
def Obligations.FetchIsBigEndianOrFaults : Prop :=
  ∀ s : State,
    (s.pc.toNat + 1 ≤ 0xFFF → ∃ w, fetch s = .ok w ∧
      w.toNat = 256 * (s.mem.read s.pc.toNat).toNat + (s.mem.read (s.pc.toNat + 1)).toNat) ∧
    (0xFFF < s.pc.toNat + 1 → fetch s = .error (.fetchFault s.pc) ∧
      (s.Running → step s = .next (s.recordFault (.fetchFault s.pc))))

/-- When the two bytes at PC decode to i, a running core's step is exec of i, followed by the tick exactly when exec
advances (R89). -/
def Obligations.StepIsExecOfTheDecodedInstruction : Prop :=
  ∀ (s : State) (i : Instr), s.Running → s.NextIs i → step s = afterExec (exec i s) ∧
    (∀ t es, exec i s = .next t → t.lastStep = some (.advanced es) → step s = .next (tick t)) ∧
    (∀ t, exec i s = .next t → (t.lastStep = some .blocked ∨ ∃ f, t.lastStep = some (.faulted f)) →
      step s = .next t)

/-- R89: a faulted core has no step; a running one has exactly one of the outcomes Advanced (with its tick), Blocked
(nothing changed) and Faulted (nothing changed but RUN). -/
def Obligations.StepHasOneOfThreeOutcomes : Prop :=
  ∀ s : State,
    (∀ f, s.FaultedWith f → step s = .fault (.coreFaulted f)) ∧
    (s.Running →
      (0xFFF < s.pc.toNat + 1 → step s = .next (s.recordFault (.fetchFault s.pc))) ∧
      (∀ i, s.NextIs i → ∃ t, exec i s = .next t ∧
        ((t.lastStep = some (.advanced []) ∧ t.Running ∧ step s = .next (tick t)) ∨
         (t = { s with lastStep := some .blocked } ∧ step s = .next t) ∨
         (∃ f, t = s.recordFault f ∧ step s = .next t))) ∧
      (∀ w, fetch s = .ok w → decode w = .error (.unknownOpcode w) →
        step s = .next (tick { s with pc := s.pc + 2#16, lastStep := some (.advanced [.unknownOpcode w]) })))

/-- R47: the step of an unknown opcode reports it, goes on at PC + 2, runs the tick and writes nothing else. -/
def Obligations.UnknownOpcodeIsReportedAndSkipped : Prop :=
  ∀ (s : State) (w : Word), s.Running → fetch s = .ok w → (∀ i, decode w ≠ .ok i) →
    ∃ t, step s = .next t ∧ t.pc = s.pc + 2#16 ∧
      t.lastStep = some (.advanced (.unknownOpcode w :: if s.st = 1#8 then [.beep] else [])) ∧
      t.dt.toNat = s.dt.toNat - 1 ∧ t.st.toNat = s.st.toNat - 1 ∧ Untouched { dt := true, st := true } s t

/-- R92: a step that faults leaves the state as it was but for RUN, which records the fault, and the report; and then
there is no step. -/
def Obligations.FaultingStepChangesOnlyRun : Prop :=
  ∀ (s t : State) (f : CoreFault), s.Running → step s = .next t → t.FaultedWith f →
    t = s.recordFault f ∧ t.pc = s.pc ∧ step t = .fault (.coreFaulted f)

/-- R91: which step raises which fault, with its info and code; and, what the spec infers from that table in R94, at most
one fault applies to one state. -/
def Obligations.StepFaultsExactlyAsTabled : Prop :=
  (∀ (s : State) (f : CoreFault), s.Running →
    ((∃ t, step s = .next t ∧ t.FaultedWith f) ↔ StepRaises s f)) ∧
  (∀ (s : State) (f g : CoreFault), StepRaises s f → StepRaises s g → f = g) ∧
  (∀ (p : Word) (a : Nat) (v : Byte), (CoreFault.fetchFault p).code = 1 ∧ (CoreFault.addressFault a).code = 2 ∧
    (CoreFault.stackOverflow p).code = 3 ∧ (CoreFault.stackUnderflow p).code = 4 ∧
    (CoreFault.keyIndexFault v).code = 5 ∧ (CoreFault.indexOverflow a).code = 6)

/-- R93: no move but the host's reset leaves Faulted, and a reset that succeeds leaves the core Running with every
element of the state rebuilt: nothing of the state before is in it (but the model's count of draws, log 22). -/
def Obligations.OnlyResetLeavesFaulted : Prop :=
  (∀ (m : Move) (s t : State) (f : CoreFault), s.FaultedWith f → m.next s = some t → ¬ t.FaultedWith f →
    ∃ rom, m = .host (.reset rom)) ∧
  (∀ (rom : List Byte) (s t : State), hostReset rom s = .ok t → t.Running ∧
    ∀ s' : State, hostReset rom s' = .ok { t with draws := s'.draws })

/-- A step is Blocked only at FX0A with no key pressed, and then nothing has changed but the report. -/
def Obligations.OnlyTheKeyWaitBlocks : Prop :=
  ∀ s t : State, step s = .next t → t.lastStep = some .blocked →
    t = { s with lastStep := some .blocked } ∧ (∀ k, s.key k = false) ∧ ∃ x, s.NextIs (.ldVxK x)

/-- R100: the events of a step that advances are at most one UnknownOpcode and at most one Beep. -/
def Obligations.StepEmitsAtMostOneOfEachEvent : Prop :=
  ∀ (s t : State) (es : List Event), step s = .next t → t.lastStep = some (.advanced es) →
    es = [] ∨ es = [.beep] ∨ ∃ w, fetch s = .ok w ∧ (∀ i, decode w ≠ .ok i) ∧
      (es = [.unknownOpcode w] ∨ es = [.unknownOpcode w, .beep])

/-- R97: the tick takes one off each timer that is not 0, independently, emits Beep exactly when ST was 1, and writes
nothing else. -/
def Obligations.TickCountsDownAndBeeps : Prop :=
  ∀ (s : State) (es : List Event), s.lastStep = some (.advanced es) →
    (tick s).dt.toNat = s.dt.toNat - 1 ∧ (tick s).st.toNat = s.st.toNat - 1 ∧
    (tick s).lastStep = some (.advanced (if s.st = 1#8 then es ++ [.beep] else es)) ∧
    (tick s).pc = s.pc ∧ Untouched { dt := true, st := true } s (tick s)

/-- Over steps that advance and write no timer, each timer falls by one a step to 0, and the beep comes in exactly the
step that takes ST from 1 to 0 (R87, R97, R98, by induction over the run). -/
def Obligations.TimersFallByOneEachStep : Prop :=
  ∀ (n : Nat) (s : Nat → State), AdvancingRun n s →
    (∀ k, k < n → ∀ x, ¬ (s k).NextIs (.ldDtVx x) ∧ ¬ (s k).NextIs (.ldStVx x)) →
    (s n).dt.toNat = (s 0).dt.toNat - n ∧ (s n).st.toNat = (s 0).st.toNat - n ∧
    ∀ k, k < n → ((s (k + 1)).Emitted .beep ↔ (s 0).st.toNat = k + 1)

/-! ### Who writes what (10_state.md, 20_memory.md) -/

/-- Every instruction's frame in one table: exec writes nothing but PC, the report and what `touches` lists, or it
records a fault and writes nothing else. -/
def Obligations.EveryInstructionKeepsItsFrame : Prop :=
  ∀ (i : Instr) (s t : State), exec i s = .next t → (∃ f, t = s.recordFault f) ∨ Untouched (touches i s) s t

/-- R25: DIRTY is set by 00E0 and DXYN alone, by DXYN even when no pixel changes; no step clears it; of the host's
moves only ConsumeFrame clears it, and Reset, which rebuilds the state. Only these two instructions change a pixel. -/
def Obligations.DirtyIsSetByDrawingAndClearedByTheHost : Prop :=
  (∀ s t : State, step s = .next t →
    (s.dirty = true → t.dirty = true) ∧
    ((t.dirty ≠ s.dirty ∨ ∃ p, t.pixel p ≠ s.pixel p) → s.NextIs .cls ∨ ∃ x y n, s.NextIs (.drw x y n)) ∧
    ((s.NextIs .cls ∨ ∃ x y n, s.NextIs (.drw x y n)) → (∃ es, t.lastStep = some (.advanced es)) →
      t.dirty = true)) ∧
  (∀ (a : HostAction) (s : State), s.dirty = true → (hostAct a s).dirty = false →
    a = .consumeFrame ∨ ∃ rom, a = .reset rom) ∧
  (∀ s : State, (hostAct .consumeFrame s).dirty = false)

/-- R23: no step writes KEY; of the host's moves only WriteKeys does, and Reset, which rebuilds the state. -/
def Obligations.KeypadIsWrittenByTheHostOnly : Prop :=
  (∀ s t : State, step s = .next t → t.keys = s.keys) ∧
  (∀ (a : HostAction) (s : State), (hostAct a s).keys ≠ s.keys →
    (∃ keys, a = .writeKeys keys) ∨ ∃ rom, a = .reset rom) ∧
  (∀ (keys : Vector Bool 16) (s : State) (k : KeyIx), (hostAct (.writeKeys keys) s).key k = keys.get k)

/-- A byte changes in a step only by FX33, at I to I + 2, or by FX55, at I to I + x (the writes of R37). -/
def Obligations.OnlyTwoInstructionsWriteMemory : Prop :=
  ∀ (s t : State) (a : Nat), step s = .next t → t.mem.read a ≠ s.mem.read a →
    (∃ x, s.NextIs (.ldBVx x) ∧ effAddr s 0 ≤ a ∧ a ≤ effAddr s 2) ∨
    (∃ x : RegIx, s.NextIs (.ldMemVx x) ∧ effAddr s 0 ≤ a ∧ a ≤ effAddr s x.val)

/-- In a step a register changes only if its instruction lists it, I only by ANNN, FX1E and FX29, SP and the stack only
by 2NNN and 00EE (the writers of R14, R16, R17). -/
def Obligations.RegistersIndexAndStackHaveNamedWriters : Prop :=
  ∀ s t : State, step s = .next t →
    (∀ r, t.getV r ≠ s.getV r → ∃ i, s.NextIs i ∧ r ∈ (touches i s).regs) ∧
    (t.i ≠ s.i → (∃ nnn, s.NextIs (.ldI nnn)) ∨ ∃ x, s.NextIs (.addIVx x) ∨ s.NextIs (.ldFVx x)) ∧
    ((t.sp ≠ s.sp ∨ t.stack ≠ s.stack) → s.NextIs .ret ∨ ∃ nnn, s.NextIs (.call nnn))

/-! ### The invariant -/

/-- The state after reset meets the invariant. -/
def Obligations.ResetStateMeetsTheInvariant : Prop := State.reset.Inv

/-- Every step keeps the invariant: memory canonical, PC at most 0x10FE, occupied stack slots at most 0xFFE, RUN in
agreement with the report (the bounds R18 derives); and so does every step under other parameters (R8). -/
def Obligations.StepKeepsTheInvariant : Prop :=
  (∀ s t : State, s.Inv → step s = .next t → t.Inv) ∧
  ∀ (p : Config.Params) (s t : State), s.Inv → stepWith p s = .next t → t.Inv

/-- Every host move keeps the invariant, and so does every load; construction and reset under any parameters meet it. -/
def Obligations.HostMovesKeepTheInvariant : Prop :=
  (∀ (a : HostAction) (s : State), s.Inv → (hostAct a s).Inv) ∧
  (∀ (rom : List Byte) (s t : State), s.Inv → hostLoad rom s = .ok t → t.Inv) ∧
  ∀ p : Config.Params, (State.constructed p).Inv ∧
    ∀ (rom : List Byte) (s t : State), hostResetWith p rom s = .ok t → t.Inv

/-- Every state of every interleaving of steps and host moves, from any loaded ROM, meets the invariant. -/
def Obligations.ReachableStatesMeetTheInvariant : Prop :=
  ∀ s : State, Reachable s → s.Inv

/-- Under the invariant no PC arithmetic of a step that fetches wraps at 16 bits, of an instruction or of an unknown
opcode (R18's consequence). -/
def Obligations.PcArithmeticIsExactUnderTheInvariant : Prop :=
  ∀ s : State, s.Inv → s.pc.toNat + 1 ≤ 0xFFF →
    (s.pc + 2#16).toNat = s.pc.toNat + 2 ∧ (s.pc + 4#16).toNat = s.pc.toNat + 4 ∧
    ∀ r u, s.pop = some (r, u) → (r + 2#16).toNat = r.toNat + 2 ∧ r.toNat + 2 ≤ 0x1000

/-- Two memories in canonical form that read alike at every address of the space are the same data. -/
def Obligations.CanonicalMemoriesThatReadAlikeAreEqual : Prop :=
  ∀ m m' : Memory, m.wf = true → m'.wf = true → (∀ a, a < 4096 → m.read a = m'.read a) → m = m'

/-! ### Reset, load and the host (60_exceptions.md, 70_reset_and_hazards.md) -/

/-- R31, and the values the source lists in R106, for any FONT (R8): reset leaves the font, the ROM and zeros in memory,
as construction does, and registers, I, SP, stack and timers 0, PC 0x200, RUN Running; a ROM of more than 3584 bytes is
refused and changes nothing (D15). The machine's own reset is the one with its parameters. -/
def Obligations.ResetRebuildsMemoryAndRegisters : Prop :=
  (∀ (p : Config.Params) (rom : List Byte) (s : State),
    (rom.length ≤ 3584 → ∃ t, hostResetWith p rom s = .ok t ∧
      (∀ a, a < 4096 → t.mem.read a =
        if a < 80 then p.font.toList.getD a 0#8
        else if 0x200 ≤ a ∧ a < 0x200 + rom.length then rom.getD (a - 0x200) 0#8 else 0#8) ∧
      (∀ r, t.getV r = 0#8) ∧ t.i = 0#16 ∧ t.pc = 0x200#16 ∧ t.sp = 0 ∧ (∀ k, t.stack.get k = 0#16) ∧
      t.dt = 0#8 ∧ t.st = 0#8 ∧ t.Running ∧ ∃ c, hostLoad rom (State.constructed p) = .ok c ∧ c.mem = t.mem) ∧
    (3584 < rom.length → hostResetWith p rom s = .error (.tooLong rom.length))) ∧
  (∀ (rom : List Byte) (s : State), hostReset rom s = hostResetWith Config.params rom s ∧
    (3584 < rom.length → hostAct (.reset rom) s = s))

/-- Reset leaves every pixel 0, DIRTY false and every key released: the spec's own choice D16, in the model by log 9. -/
def Obligations.ResetClearsDisplayAndKeypad : Prop :=
  ∀ (rom : List Byte) (s t : State), hostReset rom s = .ok t →
    (∀ p, t.pixel p = false) ∧ t.dirty = false ∧ ∀ k, t.key k = false

/-- R108: the loader copies a ROM of up to 3584 bytes to 0x200 verbatim and changes nothing else; a longer one is
refused with its length (D15). -/
def Obligations.LoaderCopiesTheRom : Prop :=
  ∀ (rom : List Byte) (s : State),
    (rom.length ≤ 3584 → ∃ t, hostLoad rom s = .ok t ∧
      (∀ k, k < rom.length → t.mem.read (0x200 + k) = rom.getD k 0#8) ∧
      (∀ a, a < 0x200 ∨ 0x200 + rom.length ≤ a → t.mem.read a = s.mem.read a) ∧
      t = { s with mem := t.mem }) ∧
    (3584 < rom.length → hostLoad rom s = .error (.tooLong rom.length))

/-- Loading a ROM into the freshly constructed state is resetting it with that ROM, under any parameters (R107's derived
equation). -/
def Obligations.LoadOnConstructionIsReset : Prop :=
  (∀ (p : Config.Params) (rom : List Byte),
    hostLoad rom (State.constructed p) = hostResetWith p rom (State.constructed p)) ∧
  ∀ rom : List Byte, hostLoad rom State.reset = hostReset rom State.reset

/-- What each host transaction touches and gives back (the table of R102): KEY alone, nothing, DIRTY alone. -/
def Obligations.HostTransactionsTouchOnlyTheirOwn : Prop :=
  ∀ s : State,
    (∀ keys : Vector Bool 16, hostAct (.writeKeys keys) s = { s with keys := keys }) ∧
    (hostAct .readFrame s = s ∧ (∀ p, Plane.pixel (readFrame s).1 p = s.pixel p) ∧ (readFrame s).2 = s.dirty) ∧
    hostAct .consumeFrame s = { s with dirty := false }

/-- The defaults of the parameters R8 lists. FONT's are the bytes of R30's table, digit by digit, and after reset the
glyph of digit d is at 5 * d to 5 * d + 4. The spec has these bytes from general knowledge (D17, log 8). -/
def Obligations.ParametersHaveTheDefaults : Prop :=
  let glyphs : List (List Byte) :=
    [[0xF0#8, 0x90#8, 0x90#8, 0x90#8, 0xF0#8], [0x20#8, 0x60#8, 0x20#8, 0x20#8, 0x70#8],
     [0xF0#8, 0x10#8, 0xF0#8, 0x80#8, 0xF0#8], [0xF0#8, 0x10#8, 0xF0#8, 0x10#8, 0xF0#8],
     [0x90#8, 0x90#8, 0xF0#8, 0x10#8, 0x10#8], [0xF0#8, 0x80#8, 0xF0#8, 0x10#8, 0xF0#8],
     [0xF0#8, 0x80#8, 0xF0#8, 0x90#8, 0xF0#8], [0xF0#8, 0x10#8, 0x20#8, 0x40#8, 0x40#8],
     [0xF0#8, 0x90#8, 0xF0#8, 0x90#8, 0xF0#8], [0xF0#8, 0x90#8, 0xF0#8, 0x10#8, 0xF0#8],
     [0xF0#8, 0x90#8, 0xF0#8, 0x90#8, 0x90#8], [0xE0#8, 0x90#8, 0xE0#8, 0x90#8, 0xE0#8],
     [0xF0#8, 0x80#8, 0x80#8, 0x80#8, 0xF0#8], [0xE0#8, 0x90#8, 0x90#8, 0x90#8, 0xE0#8],
     [0xF0#8, 0x80#8, 0xF0#8, 0x80#8, 0xF0#8], [0xF0#8, 0x80#8, 0xF0#8, 0x80#8, 0x80#8]]
  Config.params.drawClearsVF = true ∧ Config.params.iOverflow = .fault ∧ Config.params.fx1eSetsVF = false ∧
  Config.params.font.toList = glyphs.flatten ∧
  ∀ d row : Nat, d < 16 → row < 5 → State.reset.mem.read (5 * d + row) = (glyphs.getD d []).getD row 0#8

/-- The word given to `withFetchWord` is the one the next step fetches and runs, and no other byte changes. -/
def Obligations.FetchWordIsRunNext : Prop :=
  ∀ (s : State) (w : Nat) (i : Instr), s.Running → s.pc.toNat + 1 ≤ 0xFFF → decodeTableWord 16 w = some i →
    (s.withFetchWord 16 w).NextIs i ∧
    step (s.withFetchWord 16 w) = afterExec (exec i (s.withFetchWord 16 w)) ∧
    ∀ a, a ≠ s.pc.toNat → a ≠ s.pc.toNat + 1 → (s.withFetchWord 16 w).mem.read a = s.mem.read a

/-! ### Across instructions -/

/-- A return from where a call led resumes two bytes after the call with the stack pointer of before it, whatever ran
between and left SP and the stack (95_test_vectors.md S10). -/
def Obligations.CallThenReturnResumesAfterTheCall : Prop :=
  ∀ (nnn : Addr12) (s t u : State), s.sp.val < 16 → exec (.call nnn) s = .next t → u.sp = t.sp →
    u.stack = t.stack → ∃ v, exec .ret u = .next v ∧ v.pc = s.pc + 2#16 ∧ v.sp = s.sp

/-- Bytes that FX55 stores are what a later fetch reads there (R41). -/
def Obligations.StoredBytesAreFetched : Prop :=
  ∀ (x k : RegIx) (s t u : State), k.val + 1 ≤ x.val → exec (.ldMemVx x) s = .next t →
    effAddr s x.val ≤ 0xFFF → u.mem = t.mem → u.pc.toNat = effAddr s k.val →
    fetch u = .ok (joinBytes (s.getV k) (s.getV (k + 1)))

/-- A machine at rest stays at rest, and its step changes nothing but DT, ST and the report (R112 b, R53). -/
def Obligations.AtRestOnlyTheTimersChange : Prop :=
  ∀ s : State, s.AtRest → ∃ t, step s = .next t ∧ t.AtRest ∧ t.pc = s.pc ∧
    t.dt.toNat = s.dt.toNat - 1 ∧ t.st.toNat = s.st.toNat - 1 ∧ Untouched { dt := true, st := true } s t

/-- R105: while FX0A waits every part of the state is kept, and a WriteKeys that sets a key ends the wait at the next
step. -/
def Obligations.WriteKeysEndsTheWait : Prop :=
  ∀ (x : RegIx) (s : State) (keys : Vector Bool 16), s.Running → s.NextIs (.ldVxK x) →
    (∀ k, s.key k = false) → (∃ k, keys.get k = true) →
    ∃ t u, step s = .next t ∧ t = { s with lastStep := some .blocked } ∧
      step (hostAct (.writeKeys keys) t) = .next u ∧ u.pc = s.pc + 2#16 ∧
      ∃ k : KeyIx, keys.get k = true ∧ (u.getV x).toNat = k.val

/-! ### Other parameters (00_scope.md 3) -/

/-- The configured machine at the default parameters is the machine: instructions, step, construction and reset. Other
parameters reach a step in DXYN and FX1E alone: those two run `drawWith` and `addIWith` (R75, R81), and every other step,
of a faulted core, an unknown word or a failed fetch too, is the machine's (R8). -/
def Obligations.ParametersReachOnlyDrawAndAddIndex : Prop :=
  (∀ (i : Instr) (s : State), execWith Config.params i s = exec i s) ∧
  (∀ s : State, stepWith Config.params s = step s) ∧
  State.constructed Config.params = State.reset ∧
  (∀ (rom : List Byte) (s : State), hostResetWith Config.params rom s = hostReset rom s) ∧
  (∀ (p : Config.Params) (s : State), stepWith p s ≠ step s →
    s.Running ∧ ((∃ x y n, s.NextIs (.drw x y n)) ∨ ∃ x, s.NextIs (.addIVx x))) ∧
  (∀ (p : Config.Params) (s : State) (x y : RegIx) (n : Nibble), s.Running → s.NextIs (.drw x y n) →
    stepWith p s = afterExec (drawWith p x y n s)) ∧
  (∀ (p : Config.Params) (s : State) (x : RegIx), s.Running → s.NextIs (.addIVx x) →
    stepWith p s = afterExec (addIWith p x s))
end

