-- ==== Sys2Proof/Laws/Decode.lean ====
section
/-! SUPPORT. The fields of an encoded word, and a word as its four nibbles. -/

namespace Sys2Proof

@[simp] theorem regOf_nibbleOf (x : RegIx) : regOf (nibbleOf x) = x := rfl

@[simp] theorem nibbleOf_regOf (n : Nibble) : nibbleOf (regOf n) = n := rfl

@[simp] theorem family_encNNN (f : Nibble) (nnn : Addr12) : family (encNNN f nnn) = f := by
  ext i hi
  simp only [family, encNNN, BitVec.getElem_extractLsb', BitVec.getLsbD_append]
  simp [show ¬ 12 + i < 12 by omega, BitVec.getLsbD_eq_getElem, hi]

@[simp] theorem fieldNNN_encNNN (f : Nibble) (nnn : Addr12) : fieldNNN (encNNN f nnn) = nnn := by
  ext i hi
  simp only [fieldNNN, encNNN, BitVec.getElem_extractLsb', BitVec.getLsbD_append]
  simp [hi, BitVec.getLsbD_eq_getElem]

@[simp] theorem family_encXNN (f : Nibble) (x : RegIx) (nn : Byte) : family (encXNN f x nn) = f :=
  family_encNNN f _

@[simp] theorem nibbleX_encXNN (f : Nibble) (x : RegIx) (nn : Byte) : nibbleX (encXNN f x nn) = nibbleOf x := by
  ext i hi
  simp only [nibbleX, encXNN, BitVec.getElem_extractLsb', BitVec.getLsbD_append]
  simp [show 8 + i < 12 by omega, show ¬ 8 + i < 8 by omega, BitVec.getLsbD_eq_getElem, hi]

@[simp] theorem fieldNN_encXNN (f : Nibble) (x : RegIx) (nn : Byte) : fieldNN (encXNN f x nn) = nn := by
  ext i hi
  simp only [fieldNN, encXNN, BitVec.getElem_extractLsb', BitVec.getLsbD_append]
  simp [show i < 12 by omega, hi, BitVec.getLsbD_eq_getElem]

@[simp] theorem family_encXYN (f : Nibble) (x : RegIx) (y n : Nibble) : family (encXYN f x y n) = f :=
  family_encXNN f x _

@[simp] theorem nibbleX_encXYN (f : Nibble) (x : RegIx) (y n : Nibble) : nibbleX (encXYN f x y n) = nibbleOf x :=
  nibbleX_encXNN f x _

@[simp] theorem nibbleY_encXYN (f : Nibble) (x : RegIx) (y n : Nibble) : nibbleY (encXYN f x y n) = y := by
  ext i hi
  simp only [nibbleY, encXYN, encXNN, BitVec.getElem_extractLsb', BitVec.getLsbD_append]
  simp [show 4 + i < 12 by omega, show 4 + i < 8 by omega, hi, BitVec.getLsbD_eq_getElem]

@[simp] theorem nibbleN_encXYN (f : Nibble) (x : RegIx) (y n : Nibble) : nibbleN (encXYN f x y n) = n := by
  ext i hi
  simp only [nibbleN, encXYN, encXNN, BitVec.getElem_extractLsb', BitVec.getLsbD_append]
  simp [show i < 12 by omega, show i < 8 by omega, hi, BitVec.getLsbD_eq_getElem]

/-- A word is its family and `NNN`. -/
theorem encNNN_fields (w : Word) : encNNN (family w) (fieldNNN w) = w := by
  apply BitVec.eq_of_getLsbD_eq
  intro i hi
  simp only [family, fieldNNN, encNNN, BitVec.getLsbD_append, BitVec.getLsbD_extractLsb']
  split
  · simp_all
  · simp [show 12 + (i - 12) = i by omega, show i - 12 < 4 by omega]

/-- A word is its family, `X` and `NN`. -/
theorem encXNN_fields (w : Word) : encXNN (family w) (regOf (nibbleX w)) (fieldNN w) = w := by
  apply BitVec.eq_of_getLsbD_eq
  intro i hi
  simp only [family, nibbleX, fieldNN, encXNN, nibbleOf_regOf, BitVec.getLsbD_append, BitVec.getLsbD_extractLsb']
  split
  · split
    · simp_all
    · simp [show 8 + (i - 8) = i by omega, show i - 8 < 4 by omega]
  · simp [show 12 + (i - 12) = i by omega, show i - 12 < 4 by omega]

/-- A word is its four nibbles (R42). -/
theorem encXYN_fields (w : Word) : encXYN (family w) (regOf (nibbleX w)) (nibbleY w) (nibbleN w) = w := by
  have h : (nibbleY w ++ nibbleN w : Byte) = fieldNN w := by
    ext i hi
    simp only [nibbleY, nibbleN, fieldNN, BitVec.getElem_append, BitVec.getElem_extractLsb']
    split
    · simp
    · simp [show 4 + (i - 4) = i by omega]
  exact (congrArg (encXNN (family w) (regOf (nibbleX w))) h).trans (encXNN_fields w)

/-- The first byte of a word back in bits 15-8 and the second in bits 7-0 (R35). -/
theorem joinBytes_wordBytes (w : Word) : joinBytes (w.extractLsb' 8 8) (w.extractLsb' 0 8) = w := by
  apply BitVec.eq_of_getLsbD_eq
  intro i hi
  simp only [joinBytes, BitVec.getLsbD_append, BitVec.getLsbD_extractLsb']
  split
  · simp_all
  · simp [show 8 + (i - 8) = i by omega, show i - 8 < 8 by omega]

/-- The decoder on a word's two bytes is the decoder on the word. -/
theorem decodeBytes_wordBytes (w : Word) (rest : List Byte) :
    decodeBytes (wordBytes w ++ rest) = (decode w).map (fun i => (i, rest)) := by
  simp only [wordBytes, List.cons_append, List.nil_append, decodeBytes, joinBytes_wordBytes]
  cases decode w <;> rfl

end Sys2Proof
end

