-- ==== Sys2Proof/Laws/Memory.lean ====
section
/-! SUPPORT. Memory: read after write, and that every operation keeps the canonical form. -/

namespace Sys2Proof.Config

/-! The sizes of R7 as numerals. -/

@[simp] theorem memSize_eq : memSize = 4096 := rfl
@[simp] theorem programBase_eq : programBase = 0x200 := rfl
@[simp] theorem maxRom_eq : maxRom = 3584 := rfl
@[simp] theorem fontSize_eq : fontSize = 80 := rfl

end Sys2Proof.Config

namespace Sys2Proof.Machine

theorem Memory.find_insert (m : Memory) (a b : Nat) (v : Byte) :
    (m.insert a v).find b = if b = a then some v else m.find b := by
  induction m with
  | nil => simp [Memory.insert, Memory.find]
  | cons c rest ih =>
    obtain ⟨k, w⟩ := c
    simp only [Memory.insert]
    split
    · simp [Memory.find]
    · split
      · subst_vars; simp only [Memory.find]; split <;> simp_all
      · simp only [Memory.find, ih]; split <;> simp_all; omega

theorem Memory.find_erase (m : Memory) (a b : Nat) :
    (m.erase a).find b = if b = a then none else m.find b := by
  induction m with
  | nil => simp [Memory.erase, Memory.find]
  | cons c rest ih =>
    obtain ⟨k, w⟩ := c
    simp only [Memory.erase]
    split
    · subst_vars; simp only [ih, Memory.find]; split <;> simp_all
    · simp only [Memory.find, ih]; split <;> simp_all; omega

@[simp] theorem Memory.read_nil (a : Nat) : Memory.read [] a = Memory.unlisted a := rfl

/-- Read after write: the byte written at its address, every other byte as before. -/
@[simp] theorem Memory.read_write (m : Memory) (a b : Nat) (v : Byte) :
    (m.write a v).read b = if b = a then v else m.read b := by
  unfold Memory.write Memory.read
  split
  · rw [Memory.find_erase]; split <;> simp_all
  · rw [Memory.find_insert]; split <;> simp_all

/-- Read after a run of writes. -/
theorem Memory.read_writeList (m : Memory) (a : Nat) (vs : List Byte) (b : Nat) :
    (m.writeList a vs).read b = if a ≤ b then (vs[b - a]?).getD (m.read b) else m.read b := by
  induction vs generalizing m a with
  | nil => simp [Memory.writeList]
  | cons v rest ih =>
    simp only [Memory.writeList, ih, Memory.read_write]
    rcases Nat.lt_trichotomy b a with h | h | h
    · simp [Nat.not_le.2 h, show ¬ a + 1 ≤ b by omega, show b ≠ a by omega]
    · subst h; simp
    · obtain ⟨d, rfl⟩ : ∃ d, b = a + 1 + d := ⟨b - (a + 1), by omega⟩
      simp [show a ≤ a + 1 + d by omega, show a + 1 + d ≠ a by omega,
        show a + 1 + d - a = d + 1 by omega, show a + 1 + d - (a + 1) = d by omega]

theorem Memory.read_writeList_outside (m : Memory) (a : Nat) (vs : List Byte) (b : Nat)
    (h : b < a ∨ a + vs.length ≤ b) : (m.writeList a vs).read b = m.read b := by
  rw [Memory.read_writeList]
  split
  · rw [List.getElem?_eq_none (by omega)]; rfl
  · rfl

theorem Memory.read_writeList_inside (m : Memory) (a : Nat) (vs : List Byte) (k : Nat) (h : k < vs.length) :
    (m.writeList a vs).read (a + k) = vs[k] := by
  simp [Memory.read_writeList, List.getElem?_eq_getElem h]

/-! ### The canonical form -/

/-- The canonical form as a proposition: a strictly rising list of cells that differ from the unlisted byte. -/
def Memory.Canonical (m : Memory) : Prop :=
  m.Pairwise (fun c d => c.1 < d.1) ∧ ∀ c ∈ m, c.1 < Config.memSize ∧ c.2 ≠ Memory.unlisted c.1

theorem Memory.rising_iff (m : Memory) : m.rising = true ↔ m.Pairwise (fun c d => c.1 < d.1) := by
  induction m with
  | nil => simp [Memory.rising]
  | cons c rest ih =>
    obtain ⟨a, v⟩ := c
    cases rest with
    | nil => simp [Memory.rising]
    | cons d tail =>
      obtain ⟨b, w⟩ := d
      simp only [Memory.rising, Bool.and_eq_true, decide_eq_true_eq, ih]
      constructor
      · rintro ⟨h, hp⟩
        refine List.pairwise_cons.2 ⟨?_, hp⟩
        intro e he
        rcases List.mem_cons.1 he with rfl | he
        · exact h
        · exact Nat.lt_trans h ((List.pairwise_cons.1 hp).1 e he)
      · intro hp
        have := List.pairwise_cons.1 hp
        exact ⟨this.1 (b, w) (by simp), this.2⟩

theorem Memory.wf_iff (m : Memory) : m.wf = true ↔ m.Canonical := by
  simp [Memory.wf, Memory.Canonical, Memory.rising_iff]

theorem Memory.mem_insert {m : Memory} {a : Nat} {v : Byte} {c : Host.Cell} (h : c ∈ m.insert a v) :
    c = (a, v) ∨ c ∈ m := by
  induction m with
  | nil => simpa [Memory.insert] using h
  | cons d rest ih =>
    obtain ⟨b, w⟩ := d
    simp only [Memory.insert] at h
    split at h
    · simpa using h
    · split at h
      · simp only [List.mem_cons] at h ⊢; tauto
      · simp only [List.mem_cons] at h ⊢
        rcases h with h | h
        · exact .inr (.inl h)
        · have := ih h; tauto

theorem Memory.mem_erase {m : Memory} {a : Nat} {c : Host.Cell} (h : c ∈ m.erase a) : c ∈ m := by
  induction m with
  | nil => simp [Memory.erase] at h
  | cons d rest ih =>
    obtain ⟨b, w⟩ := d
    simp only [Memory.erase] at h
    split at h
    · exact List.mem_cons_of_mem _ (ih h)
    · rcases List.mem_cons.1 h with h | h
      · simp [h]
      · exact List.mem_cons_of_mem _ (ih h)

theorem Memory.pairwise_insert {m : Memory} (a : Nat) (v : Byte) (h : m.Pairwise (fun c d => c.1 < d.1)) :
    (m.insert a v).Pairwise (fun c d => c.1 < d.1) := by
  induction m with
  | nil => simp [Memory.insert]
  | cons c rest ih =>
    obtain ⟨b, w⟩ := c
    have hc := List.pairwise_cons.1 h
    simp only [Memory.insert]
    split
    · refine List.pairwise_cons.2 ⟨?_, h⟩
      intro d hd
      rcases List.mem_cons.1 hd with rfl | hd
      · assumption
      · exact Nat.lt_trans ‹_› (hc.1 d hd)
    · split
      · subst_vars; exact List.pairwise_cons.2 ⟨hc.1, hc.2⟩
      · refine List.pairwise_cons.2 ⟨?_, ih hc.2⟩
        intro d hd
        rcases Memory.mem_insert hd with rfl | hd
        · show b < a; omega
        · exact hc.1 d hd

theorem Memory.pairwise_erase {m : Memory} (a : Nat) (h : m.Pairwise (fun c d => c.1 < d.1)) :
    (m.erase a).Pairwise (fun c d => c.1 < d.1) := by
  induction m with
  | nil => simp [Memory.erase]
  | cons c rest ih =>
    obtain ⟨b, w⟩ := c
    have hc := List.pairwise_cons.1 h
    simp only [Memory.erase]
    split
    · exact ih hc.2
    · exact List.pairwise_cons.2 ⟨fun d hd => hc.1 d (Memory.mem_erase hd), ih hc.2⟩

theorem Memory.canonical_write {m : Memory} {a : Nat} (v : Byte) (ha : a < Config.memSize) (h : m.Canonical) :
    (m.write a v).Canonical := by
  unfold Memory.write
  split
  · exact ⟨Memory.pairwise_erase a h.1, fun c hc => h.2 c (Memory.mem_erase hc)⟩
  · refine ⟨Memory.pairwise_insert a v h.1, fun c hc => ?_⟩
    rcases Memory.mem_insert hc with rfl | hc
    · exact ⟨ha, ‹_›⟩
    · exact h.2 c hc

/-- A write in range keeps the canonical form. -/
theorem Memory.wf_write {m : Memory} {a : Nat} (v : Byte) (ha : a < Config.memSize) (h : m.wf = true) :
    (m.write a v).wf = true :=
  (Memory.wf_iff _).2 (Memory.canonical_write v ha ((Memory.wf_iff _).1 h))

/-- A run of writes in range keeps the canonical form. -/
theorem Memory.wf_writeList {m : Memory} {a : Nat} {vs : List Byte} (ha : a + vs.length ≤ Config.memSize)
    (h : m.wf = true) : (m.writeList a vs).wf = true := by
  induction vs generalizing m a with
  | nil => simpa [Memory.writeList] using h
  | cons v rest ih =>
    simp only [List.length_cons] at ha
    exact ih (by omega) (Memory.wf_write v (by omega) h)

theorem Memory.wf_nil : Memory.wf [] = true := rfl

theorem State.reset_mem_wf : State.reset.mem.wf = true := rfl

/-! ### The font (R30, R31) -/

theorem font_length (font : Vector Byte Config.fontSize) : font.toList.length = Config.fontSize := by simp

/-- An installed font is what its addresses read as, and no other byte changes. -/
theorem Memory.read_installFont (font : Vector Byte Config.fontSize) (m : Memory) (a : Nat) :
    (m.installFont font).read a = if a < Config.fontSize then font.toList.getD a 0#8 else m.read a := by
  unfold Memory.installFont
  rw [Memory.read_writeList]
  by_cases h : a < Config.fontSize <;> simp [h, List.getD_eq_getElem?_getD]

/-- Installing a font keeps the canonical form. -/
theorem Memory.wf_installFont {font : Vector Byte Config.fontSize} {m : Memory} (h : m.wf = true) :
    (m.installFont font).wf = true :=
  Memory.wf_writeList (by rw [font_length]; decide) h

/-- Writing what memory with nothing listed reads as lists nothing. -/
theorem Memory.writeList_unlisted (a : Nat) (vs : List Byte)
    (h : ∀ k, k < vs.length → vs.getD k 0#8 = Memory.unlisted (a + k)) : Memory.writeList [] a vs = [] := by
  induction vs generalizing a with
  | nil => rfl
  | cons v rest ih =>
    have h0 : v = Memory.unlisted a := h 0 (by simp)
    simp only [Memory.writeList, Memory.write, if_pos h0, Memory.erase]
    exact ih (a + 1) fun k hk => by
      simpa [Nat.add_assoc, Nat.add_comm 1] using h (k + 1) (by simpa using hk)

/-- The default font is what memory with nothing listed already reads as. -/
@[simp] theorem Memory.installFont_default : Memory.installFont Config.params.font [] = [] :=
  Memory.writeList_unlisted 0 _ fun k hk => by
    have hk : k < Config.fontSize := by simpa using hk
    simp only [Nat.zero_add, Memory.unlisted, if_pos hk]

end Sys2Proof.Machine
end

