-- ==== Sys2Proof/Laws/State.lean ====
section
/-! SUPPORT. One lemma per field per update, so that no later proof unfolds a record update. -/

namespace Sys2Proof.Machine

/-! ### `V[x] <- b` -/

/-- Register read after register write. -/
@[simp] theorem State.getV_setV (s : State) (x y : RegIx) (b : Byte) :
    (s.setV x b).getV y = if y = x then b else s.getV y := by
  simp only [State.getV, State.setV, Vector.get_eq_getElem, Vector.getElem_set, Fin.ext_iff, eq_comm]

theorem State.getV_setV_same (s : State) (x : RegIx) (b : Byte) : (s.setV x b).getV x = b := by simp

theorem State.getV_setV_other (s : State) {x y : RegIx} (b : Byte) (h : y ≠ x) :
    (s.setV x b).getV y = s.getV y := by simp [h]

/-- Two states with the same registers read alike. -/
theorem State.getV_congr {s t : State} (h : t.v = s.v) (x : RegIx) : t.getV x = s.getV x := by
  simp [State.getV, h]

@[simp] theorem State.setV_mem (s : State) (x : RegIx) (b : Byte) : (s.setV x b).mem = s.mem := rfl
@[simp] theorem State.setV_i (s : State) (x : RegIx) (b : Byte) : (s.setV x b).i = s.i := rfl
@[simp] theorem State.setV_pc (s : State) (x : RegIx) (b : Byte) : (s.setV x b).pc = s.pc := rfl
@[simp] theorem State.setV_sp (s : State) (x : RegIx) (b : Byte) : (s.setV x b).sp = s.sp := rfl
@[simp] theorem State.setV_stack (s : State) (x : RegIx) (b : Byte) : (s.setV x b).stack = s.stack := rfl
@[simp] theorem State.setV_dt (s : State) (x : RegIx) (b : Byte) : (s.setV x b).dt = s.dt := rfl
@[simp] theorem State.setV_st (s : State) (x : RegIx) (b : Byte) : (s.setV x b).st = s.st := rfl
@[simp] theorem State.setV_keys (s : State) (x : RegIx) (b : Byte) : (s.setV x b).keys = s.keys := rfl
@[simp] theorem State.setV_fb (s : State) (x : RegIx) (b : Byte) : (s.setV x b).fb = s.fb := rfl
@[simp] theorem State.setV_dirty (s : State) (x : RegIx) (b : Byte) : (s.setV x b).dirty = s.dirty := rfl
@[simp] theorem State.setV_run (s : State) (x : RegIx) (b : Byte) : (s.setV x b).run = s.run := rfl
@[simp] theorem State.setV_lastStep (s : State) (x : RegIx) (b : Byte) : (s.setV x b).lastStep = s.lastStep := rfl
@[simp] theorem State.setV_draws (s : State) (x : RegIx) (b : Byte) : (s.setV x b).draws = s.draws := rfl

@[simp] theorem State.setV_pixel (s : State) (x : RegIx) (b : Byte) (p : Nat) : (s.setV x b).pixel p = s.pixel p := rfl

/-! ### `emit e` -/

@[simp] theorem State.emit_mem (s : State) (e : Event) : (s.emit e).mem = s.mem := by
  unfold State.emit; split <;> rfl
@[simp] theorem State.emit_v (s : State) (e : Event) : (s.emit e).v = s.v := by
  unfold State.emit; split <;> rfl
@[simp] theorem State.emit_i (s : State) (e : Event) : (s.emit e).i = s.i := by
  unfold State.emit; split <;> rfl
@[simp] theorem State.emit_pc (s : State) (e : Event) : (s.emit e).pc = s.pc := by
  unfold State.emit; split <;> rfl
@[simp] theorem State.emit_sp (s : State) (e : Event) : (s.emit e).sp = s.sp := by
  unfold State.emit; split <;> rfl
@[simp] theorem State.emit_stack (s : State) (e : Event) : (s.emit e).stack = s.stack := by
  unfold State.emit; split <;> rfl
@[simp] theorem State.emit_dt (s : State) (e : Event) : (s.emit e).dt = s.dt := by
  unfold State.emit; split <;> rfl
@[simp] theorem State.emit_st (s : State) (e : Event) : (s.emit e).st = s.st := by
  unfold State.emit; split <;> rfl
@[simp] theorem State.emit_keys (s : State) (e : Event) : (s.emit e).keys = s.keys := by
  unfold State.emit; split <;> rfl
@[simp] theorem State.emit_fb (s : State) (e : Event) : (s.emit e).fb = s.fb := by
  unfold State.emit; split <;> rfl
@[simp] theorem State.emit_dirty (s : State) (e : Event) : (s.emit e).dirty = s.dirty := by
  unfold State.emit; split <;> rfl
@[simp] theorem State.emit_run (s : State) (e : Event) : (s.emit e).run = s.run := by
  unfold State.emit; split <;> rfl
@[simp] theorem State.emit_draws (s : State) (e : Event) : (s.emit e).draws = s.draws := by
  unfold State.emit; split <;> rfl

theorem State.emit_advanced {s : State} {es : List Event} (e : Event) (h : s.lastStep = some (.advanced es)) :
    (s.emit e).lastStep = some (.advanced (es ++ [e])) := by
  simp [State.emit, h]

/-! ### The tick -/

@[simp] theorem tick_mem (s : State) : (tick s).mem = s.mem := by
  unfold tick tickSound tickDelay; (repeat' split) <;> simp
@[simp] theorem tick_v (s : State) : (tick s).v = s.v := by
  unfold tick tickSound tickDelay; (repeat' split) <;> simp
@[simp] theorem tick_i (s : State) : (tick s).i = s.i := by
  unfold tick tickSound tickDelay; (repeat' split) <;> simp
@[simp] theorem tick_pc (s : State) : (tick s).pc = s.pc := by
  unfold tick tickSound tickDelay; (repeat' split) <;> simp
@[simp] theorem tick_sp (s : State) : (tick s).sp = s.sp := by
  unfold tick tickSound tickDelay; (repeat' split) <;> simp
@[simp] theorem tick_stack (s : State) : (tick s).stack = s.stack := by
  unfold tick tickSound tickDelay; (repeat' split) <;> simp
@[simp] theorem tick_keys (s : State) : (tick s).keys = s.keys := by
  unfold tick tickSound tickDelay; (repeat' split) <;> simp
@[simp] theorem tick_fb (s : State) : (tick s).fb = s.fb := by
  unfold tick tickSound tickDelay; (repeat' split) <;> simp
@[simp] theorem tick_dirty (s : State) : (tick s).dirty = s.dirty := by
  unfold tick tickSound tickDelay; (repeat' split) <;> simp
@[simp] theorem tick_run (s : State) : (tick s).run = s.run := by
  unfold tick tickSound tickDelay; (repeat' split) <;> simp
@[simp] theorem tick_draws (s : State) : (tick s).draws = s.draws := by
  unfold tick tickSound tickDelay; (repeat' split) <;> simp

/-- The delay timer after a tick: one less, floor 0 (R97). -/
@[simp] theorem tick_dt (s : State) : (tick s).dt = if s.dt = 0#8 then 0#8 else s.dt - 1#8 := by
  unfold tick tickSound tickDelay; (repeat' split) <;> simp_all

/-- The sound timer after a tick: one less, floor 0 (R97). -/
@[simp] theorem tick_st (s : State) : (tick s).st = if s.st = 0#8 then 0#8 else s.st - 1#8 := by
  unfold tick tickSound tickDelay; (repeat' split) <;> simp_all

/-- The events of a step that advances, after its tick: a beep is added exactly when ST was 1 (R97, R98). -/
theorem tick_lastStep {s : State} {es : List Event} (h : s.lastStep = some (.advanced es)) :
    (tick s).lastStep = some (.advanced (if s.st = 1#8 then es ++ [.beep] else es)) := by
  unfold tick tickSound tickDelay; (repeat' split) <;> simp_all [State.emit_advanced]

@[simp] theorem tick_getV (s : State) (x : RegIx) : (tick s).getV x = s.getV x := State.getV_congr (tick_v s) x

@[simp] theorem tick_pixel (s : State) (p : Nat) : (tick s).pixel p = s.pixel p := by simp [State.pixel]

/-! ### After the instruction -/

theorem afterInstruction_advanced {s : State} {es : List Event} (h : s.lastStep = some (.advanced es)) :
    afterInstruction s = tick s := by simp [afterInstruction, h]

theorem afterInstruction_blocked {s : State} (h : s.lastStep = some .blocked) : afterInstruction s = s := by
  simp [afterInstruction, h]

theorem afterInstruction_faulted {s : State} {f : CoreFault} (h : s.lastStep = some (.faulted f)) :
    afterInstruction s = s := by simp [afterInstruction, h]

@[simp] theorem afterInstruction_mem (s : State) : (afterInstruction s).mem = s.mem := by
  unfold afterInstruction; split <;> simp
@[simp] theorem afterInstruction_v (s : State) : (afterInstruction s).v = s.v := by
  unfold afterInstruction; split <;> simp
@[simp] theorem afterInstruction_i (s : State) : (afterInstruction s).i = s.i := by
  unfold afterInstruction; split <;> simp
@[simp] theorem afterInstruction_pc (s : State) : (afterInstruction s).pc = s.pc := by
  unfold afterInstruction; split <;> simp
@[simp] theorem afterInstruction_sp (s : State) : (afterInstruction s).sp = s.sp := by
  unfold afterInstruction; split <;> simp
@[simp] theorem afterInstruction_stack (s : State) : (afterInstruction s).stack = s.stack := by
  unfold afterInstruction; split <;> simp
@[simp] theorem afterInstruction_keys (s : State) : (afterInstruction s).keys = s.keys := by
  unfold afterInstruction; split <;> simp
@[simp] theorem afterInstruction_fb (s : State) : (afterInstruction s).fb = s.fb := by
  unfold afterInstruction; split <;> simp
@[simp] theorem afterInstruction_dirty (s : State) : (afterInstruction s).dirty = s.dirty := by
  unfold afterInstruction; split <;> simp
@[simp] theorem afterInstruction_run (s : State) : (afterInstruction s).run = s.run := by
  unfold afterInstruction; split <;> simp
@[simp] theorem afterInstruction_draws (s : State) : (afterInstruction s).draws = s.draws := by
  unfold afterInstruction; split <;> simp

@[simp] theorem afterExec_next (s : State) : afterExec (.next s) = .next (afterInstruction s) := rfl

/-! ### The stack (R20, R21) -/

/-- All that a push can do. -/
theorem State.push_cases (s : State) (r : Word) :
    (s.sp = 16 ∧ s.push r = none) ∨
    (∃ h : s.sp.val < 16, s.push r =
      some { s with stack := s.stack.set s.sp.val r h, sp := ⟨s.sp.val + 1, Nat.succ_lt_succ h⟩ }) := by
  unfold State.push
  split
  · exact .inr ⟨‹_›, rfl⟩
  · refine .inl ⟨?_, rfl⟩
    have := s.sp.isLt
    exact Fin.ext (by simp; omega)

/-- All that a pop can do. -/
theorem State.pop_cases (s : State) :
    (s.sp = 0 ∧ s.pop = none) ∨
    (∃ (n : Nat) (h : n < 16), s.sp.val = n + 1 ∧
      s.pop = some (s.stack.get ⟨n, h⟩, { s with sp := ⟨n, Nat.lt_succ_of_lt h⟩ })) := by
  unfold State.pop
  split
  · rename_i h; exact .inl ⟨h, rfl⟩
  · rename_i n hn h; exact .inr ⟨n, Nat.lt_of_succ_lt_succ hn, by simp [h], rfl⟩

end Sys2Proof.Machine
end

