-- ==== Sys2Proof/Laws/Ops.lean ====
section
/-! SUPPORT. For each shared operation, one lemma that says everything it can do. -/

namespace Sys2Proof.Machine

/-! ### Register lists -/

theorem mem_allRegs (k : RegIx) : k ∈ allRegs := by revert k; decide

theorem mem_regsUpTo {x k : RegIx} : k ∈ regsUpTo x ↔ k ≤ x := by simp [regsUpTo, mem_allRegs]

@[simp] theorem regsUpTo_length (x : RegIx) : (regsUpTo x).length = x.val + 1 := by revert x; decide

theorem regsUpTo_getElem (x : RegIx) : ∀ (k : Nat) (h : k < (regsUpTo x).length), ((regsUpTo x)[k]).val = k := by
  revert x; decide

theorem regsUpTo_nodup (x : RegIx) : (regsUpTo x).Nodup := by revert x; decide

theorem mem_pressed {s : State} {k : KeyIx} : k ∈ s.pressed ↔ s.key k = true := by
  simp [State.pressed, mem_allRegs]

/-- No key is pressed exactly when the list of pressed keys is empty. -/
theorem pressed_eq_nil {s : State} : s.pressed = [] ↔ ∀ k, s.key k = false := by
  simp [List.eq_nil_iff_forall_not_mem, mem_pressed]

/-! ### Range and key checks -/

/-- All that a range-checked instruction can do: the fault of R73, or its body, and then every byte it accesses is in
memory. -/
theorem withBytesAtI_cases (s : State) (count : Nat) (body : Result) :
    (0 < count ∧ 0xFFF < effAddr s (count - 1) ∧
      withBytesAtI s count body = raise s (.addressFault (max s.i.toNat 0x1000))) ∨
    ((∀ k, k < count → effAddr s k ≤ 0xFFF) ∧ withBytesAtI s count body = body) := by
  unfold withBytesAtI accessFault
  by_cases h : 0 < count ∧ effAddr s (count - 1) > 0xFFF
  · exact .inl ⟨h.1, h.2, by rw [if_pos h]⟩
  · refine .inr ⟨fun k hk => ?_, by rw [if_neg h]⟩
    have : ¬ effAddr s (count - 1) > 0xFFF := fun h' => h ⟨by omega, h'⟩
    unfold effAddr at *; omega

theorem withBytesAtI_ok {s : State} {count : Nat} (body : Result)
    (h : count = 0 ∨ effAddr s (count - 1) ≤ 0xFFF) : withBytesAtI s count body = body := by
  rcases withBytesAtI_cases s count body with ⟨h0, h1, -⟩ | ⟨-, e⟩
  · omega
  · exact e

theorem withBytesAtI_fault {s : State} {count : Nat} (body : Result) (h0 : 0 < count)
    (h : 0xFFF < effAddr s (count - 1)) :
    withBytesAtI s count body = raise s (.addressFault (max s.i.toNat 0x1000)) := by
  rcases withBytesAtI_cases s count body with ⟨-, -, e⟩ | ⟨h', -⟩
  · exact e
  · have := h' (count - 1) (by omega); omega

/-- All that an instruction with a key operand can do (R82). -/
theorem withKey_cases (s : State) (b : Byte) (body : KeyIx → Result) :
    (15 < b.toNat ∧ withKey s b body = raise s (.keyIndexFault b)) ∨
    (∃ h : b.toNat < 16, withKey s b body = body ⟨b.toNat, h⟩) := by
  unfold withKey
  split
  · exact .inr ⟨‹_›, rfl⟩
  · exact .inl ⟨by omega, rfl⟩

/-- All that the choice of a key can do (R88, D10): nothing to choose from, or a member of the list. -/
theorem drawKey_cases (s : State) (P : List KeyIx) :
    (P = [] ∧ s.drawKey P = none) ∨
    (∃ k ∈ P, s.drawKey P = some (k, { s with draws := s.draws + 1 })) := by
  unfold State.drawKey
  split
  · exact .inl ⟨rfl, rfl⟩
  · exact .inr ⟨_, by simp, rfl⟩
  · rename_i k l rest
    refine .inr ⟨_, ?_, rfl⟩
    have h : Config.keyPick s.draws % (rest.length + 2) < (k :: l :: rest).length := Nat.mod_lt _ (by simp)
    simp only [List.getD_eq_getElem?_getD, List.getElem?_eq_getElem h, Option.getD_some]
    exact List.getElem_mem h

/-! ### Fetch -/

/-- All that a fetch can do (R44). -/
theorem fetch_cases (s : State) :
    (0xFFF < s.pc.toNat + 1 ∧ fetch s = .error (.fetchFault s.pc)) ∨
    (s.pc.toNat + 1 ≤ 0xFFF ∧
      fetch s = .ok (joinBytes (s.mem.read s.pc.toNat) (s.mem.read (s.pc.toNat + 1)))) := by
  unfold fetch
  split
  · exact .inl ⟨by omega, rfl⟩
  · exact .inr ⟨by omega, rfl⟩

/-! ### Flag and result (R60, D13) -/

/-- What the flag-then-result shape answers: VF, then `V[x]` computed from the registers that write left. -/
theorem flagThenResult_eq (s : State) (flag : Byte) (x : RegIx) (result : State → Byte) :
    flagThenResult s flag x result =
      .next { (s.setV vf flag).setV x (result (s.setV vf flag)) with
        pc := s.pc + 2#16, lastStep := some (.advanced []) } := rfl

/-! ### Loading registers (R79) -/

theorem loadRegs_fold_getV (f : RegIx → Byte) (ks : List RegIx) (t : State) (r : RegIx) :
    (ks.foldl (fun t k => t.setV k (f k)) t).getV r = if r ∈ ks then f r else t.getV r := by
  induction ks generalizing t with
  | nil => simp
  | cons k rest ih =>
    simp only [List.foldl_cons, ih, State.getV_setV, List.mem_cons]
    split
    · simp_all
    · by_cases hk : r = k <;> simp_all

/-- A loop of register writes leaves all but the registers. -/
theorem loadRegs_fold_rest (f : RegIx → Byte) (ks : List RegIx) (t : State) :
    ∃ w, ks.foldl (fun t k => t.setV k (f k)) t = { t with v := w } := by
  induction ks generalizing t with
  | nil => exact ⟨t.v, rfl⟩
  | cons k rest ih =>
    obtain ⟨w, h⟩ := ih (t.setV k (f k))
    exact ⟨w, by simp only [List.foldl_cons, h]; rfl⟩

/-- The registers FX65 leaves: `V[0]` to `V[x]` from memory, the others as before. -/
theorem loadRegs_getV (s : State) (x r : RegIx) :
    (loadRegs s x).getV r = if r ≤ x then s.mem.read (effAddr s r.val) else s.getV r := by
  unfold loadRegs
  rw [loadRegs_fold_getV (fun k => s.mem.read (effAddr s k.val))]
  simp [mem_regsUpTo]

theorem loadRegs_rest (s : State) (x : RegIx) : ∃ w, loadRegs s x = { s with v := w } :=
  loadRegs_fold_rest (fun k => s.mem.read (effAddr s k.val)) _ s

/-! ### Storing registers and digits (R77, R78) -/

@[simp] theorem bcdDigits_length (b : Byte) : (bcdDigits b).length = 3 := rfl

theorem storedRegs_length (s : State) (x : RegIx) : ((regsUpTo x).map s.getV).length = x.val + 1 := by
  simp [regsUpTo_length]

theorem bytesAtI_length (s : State) (n : Nat) : (bytesAtI s n).length = n := by simp [bytesAtI]

theorem bytesAtI_getElem (s : State) (n k : Nat) (h : k < (bytesAtI s n).length) :
    (bytesAtI s n)[k] = s.mem.read (effAddr s k) := by simp [bytesAtI]

end Sys2Proof.Machine
end

