-- ==== Sys2Proof/Laws/Exec.lean ====
section
/-! SUPPORT. What exec can answer and what a step can do, said once. -/

namespace Sys2Proof.Machine

theorem raise_eq (s : State) (f : CoreFault) : raise s f = .next (s.recordFault f) := rfl

theorem block_eq (s : State) : block s = .next { s with lastStep := some .blocked } := rfl

theorem finish_eq (s : State) (p : Word) :
    finish s p = .next { s with pc := p, lastStep := some (.advanced []) } := rfl

/-! ### exec -/

/-- An answer of exec is one of three: it advances with no event of its own, it blocks (FX0A with no key), or it
raises the fault R91 names for it. -/
inductive ExecAnswer (i : Instr) (s : State) : Result → Prop where
  | advanced (t : State) (ha : t.lastStep = some (.advanced [])) (hr : t.run = s.run) : ExecAnswer i s (.next t)
  | blocked (x : RegIx) (hi : i = .ldVxK x) (hk : ∀ k, s.key k = false) :
    ExecAnswer i s (.next { s with lastStep := some .blocked })
  | faulted (f : CoreFault) (h : RaisesIn i s f) : ExecAnswer i s (.next (s.recordFault f))

theorem ExecAnswer.finish {i : Instr} {s t : State} (p : Word) (h : t.run = s.run) :
    ExecAnswer i s (finish t p) := .advanced _ rfl h

theorem ExecAnswer.finishNext {i : Instr} {s t : State} (h : t.run = s.run) : ExecAnswer i s (finishNext t) :=
  .advanced _ rfl h

theorem ExecAnswer.finishSkip {i : Instr} {s : State} (c : Bool) : ExecAnswer i s (finishSkip s c) :=
  .advanced _ rfl rfl

/-- What exec answers, for every instruction and every state. -/
theorem exec_answer (i : Instr) (s : State) : ExecAnswer i s (exec i s) := by
  cases i with
  | ret =>
    simp only [exec, execRet]
    rcases s.pop_cases with ⟨h, e⟩ | ⟨n, hn, h, e⟩ <;> rw [e]
    · exact .faulted _ ⟨h, rfl⟩
    · exact .finish _ rfl
  | call nnn =>
    simp only [exec, execCall]
    rcases s.push_cases s.pc with ⟨h, e⟩ | ⟨h, e⟩ <;> rw [e]
    · exact .faulted _ ⟨h, rfl⟩
    · exact .finish _ rfl
  | skp x =>
    simp only [exec, execSkp]
    rcases withKey_cases s (s.getV x) (fun k => Machine.finishSkip s (s.key k)) with ⟨h, e⟩ | ⟨h, e⟩ <;> rw [e]
    · exact .faulted _ ⟨h, rfl⟩
    · exact .finishSkip _
  | sknp x =>
    simp only [exec, execSknp]
    rcases withKey_cases s (s.getV x) (fun k => Machine.finishSkip s (!s.key k)) with ⟨h, e⟩ | ⟨h, e⟩ <;> rw [e]
    · exact .faulted _ ⟨h, rfl⟩
    · exact .finishSkip _
  | ldVxK x =>
    simp only [exec, execLdVxK]
    rcases drawKey_cases s s.pressed with ⟨h, e⟩ | ⟨k, -, e⟩ <;> rw [e]
    · exact .blocked x rfl (pressed_eq_nil.1 h)
    · exact .finishNext rfl
  | addIVx x =>
    simp only [exec, execAddIVx, addIWith]
    split
    · rename_i h; exact .faulted _ ⟨h.2, rfl⟩
    · refine .finishNext ?_
      split <;> rfl
  | ldBVx x =>
    simp only [exec, execLdBVx]
    rcases withBytesAtI_cases s 3 (Machine.finishNext
      { s with mem := s.mem.writeList (effAddr s 0) (bcdDigits (s.getV x)) }) with ⟨-, h, e⟩ | ⟨-, e⟩ <;> rw [e]
    · exact .faulted _ ⟨h, rfl⟩
    · exact .finishNext rfl
  | ldMemVx x =>
    simp only [exec, execLdMemVx]
    rcases withBytesAtI_cases s (x.val + 1) (Machine.finishNext
      { s with mem := s.mem.writeList (effAddr s 0) ((regsUpTo x).map s.getV) }) with ⟨-, h, e⟩ | ⟨-, e⟩ <;> rw [e]
    · exact .faulted _ ⟨h, rfl⟩
    · exact .finishNext rfl
  | ldVxMem x =>
    simp only [exec, execLdVxMem]
    rcases withBytesAtI_cases s (x.val + 1) (Machine.finishNext (loadRegs s x)) with ⟨-, h, e⟩ | ⟨-, e⟩ <;> rw [e]
    · exact .faulted _ ⟨h, rfl⟩
    · obtain ⟨w, hw⟩ := loadRegs_rest s x
      rw [hw]; exact .finishNext rfl
  | drw x y n =>
    simp only [exec, execDrw, drawWith]
    rcases withBytesAtI_cases s n.toNat (Machine.finishNext (State.setV
      { s with fb := (paint s.fb (spritePixels (s.getV x) (s.getV y) 0 (bytesAtI s n.toNat))).1, dirty := true } vf
      (collisionFlag Config.params (s.getV vf)
        (paint s.fb (spritePixels (s.getV x) (s.getV y) 0 (bytesAtI s n.toNat))).2))) with ⟨h0, h, e⟩ | ⟨-, e⟩ <;> rw [e]
    · refine .faulted _ ⟨?_, h, rfl⟩
      rintro rfl; exact absurd h0 (by decide)
    · exact .finishNext rfl
  | _ => exact .advanced _ rfl rfl

/-- exec always answers a next state: no instruction stops the machine. -/
theorem exec_next (i : Instr) (s : State) : ∃ t, exec i s = .next t := by
  have h := exec_answer i s
  revert h; generalize exec i s = r
  rintro (_ | _ | _) <;> exact ⟨_, rfl⟩

/-- The three forms of the state exec answers. -/
theorem exec_cases {i : Instr} {s t : State} (h : exec i s = .next t) :
    (t.lastStep = some (.advanced []) ∧ t.run = s.run) ∨
    (t = { s with lastStep := some .blocked } ∧ (∃ x, i = .ldVxK x) ∧ ∀ k, s.key k = false) ∨
    (∃ f, t = s.recordFault f ∧ RaisesIn i s f) := by
  have ha := exec_answer i s
  rw [h] at ha
  cases ha with
  | advanced _ ha hr => exact .inl ⟨ha, hr⟩
  | blocked x hi hk => exact .inr (.inl ⟨rfl, ⟨x, hi⟩, hk⟩)
  | faulted f hf => exact .inr (.inr ⟨f, rfl, hf⟩)

/-! ### The decoder's rejections -/

/-- The decoder gives an instruction or rejects the word by its own name (R45, R47). -/
theorem decode_cases (w : Word) : (∃ i, decode w = .ok i) ∨ decode w = .error (.unknownOpcode w) := by
  have ite_cases : ∀ {c : Prop} [Decidable c] {a b : Except Reject Instr},
      ((∃ i, a = .ok i) ∨ a = .error (.unknownOpcode w)) → ((∃ i, b = .ok i) ∨ b = .error (.unknownOpcode w)) →
      ((∃ i, (if c then a else b) = .ok i) ∨ (if c then a else b) = .error (.unknownOpcode w)) := by
    intro c _ a b ha hb; split
    · exact ha
    · exact hb
  unfold decode decodeZero decodeXY0 decodeEight decodeE decodeF
  repeat' first | exact .inl ⟨_, rfl⟩ | exact .inr rfl | apply ite_cases

theorem decode_error {w : Word} {r : Reject} (h : decode w = .error r) : r = .unknownOpcode w := by
  rcases decode_cases w with ⟨i, e⟩ | e <;> rw [e] at h <;> cases h
  rfl

/-! ### step -/

/-- All that a step can do over any meaning that always answers a next state (R89): fault at fetch, run the decoded
instruction and what follows it, or report an unknown opcode and tick. -/
theorem stepBy_cases {run : Instr → State → Result} (hrun : ∀ i s, ∃ t, run i s = .next t) {s t : State}
    (h : stepBy run s = .next t) :
    s.Running ∧
    ((0xFFF < s.pc.toNat + 1 ∧ t = s.recordFault (.fetchFault s.pc)) ∨
     (∃ i u, s.NextIs i ∧ run i s = .next u ∧ t = afterInstruction u) ∨
     (∃ w, fetch s = .ok w ∧ decode w = .error (.unknownOpcode w) ∧ t = tick (unknownOpcode s w))) := by
  unfold stepBy at h
  split at h
  · cases h
  · refine ⟨‹_›, ?_⟩
    rcases fetch_cases s with ⟨hp, e⟩ | ⟨hp, e⟩ <;> rw [e] at h
    · simp only [raise_eq, Host.Outcome.next.injEq] at h
      exact .inl ⟨hp, h.symm⟩
    · simp only at h
      split at h
      · rename_i i hd
        obtain ⟨u, hu⟩ := hrun i s
        simp only [hu, afterExec_next, Host.Outcome.next.injEq] at h
        exact .inr (.inl ⟨i, u, ⟨hp, hd⟩, hu, h.symm⟩)
      · rename_i r hd
        simp only [Host.Outcome.next.injEq] at h
        exact .inr (.inr ⟨_, e, (decode_error hd) ▸ hd, h.symm⟩)

/-- All that a step of this machine can do (R89). -/
theorem step_cases {s t : State} (h : step s = .next t) :
    s.Running ∧
    ((0xFFF < s.pc.toNat + 1 ∧ t = s.recordFault (.fetchFault s.pc)) ∨
     (∃ i u, s.NextIs i ∧ exec i s = .next u ∧ t = afterInstruction u) ∨
     (∃ w, fetch s = .ok w ∧ decode w = .error (.unknownOpcode w) ∧ t = tick (unknownOpcode s w))) :=
  stepBy_cases exec_next h

theorem step_fetchFault {s : State} (hr : s.Running) (hp : 0xFFF < s.pc.toNat + 1) :
    step s = .next (s.recordFault (.fetchFault s.pc)) := by
  have e : fetch s = .error (.fetchFault s.pc) := if_pos hp
  unfold step stepBy; rw [show s.run = .running from hr, e]; rfl

/-- The step runs the decoded instruction, whatever its meaning. -/
theorem stepBy_exec (run : Instr → State → Result) {s : State} {i : Instr} (hr : s.Running) (hi : s.NextIs i) :
    stepBy run s = afterExec (run i s) := by
  rcases fetch_cases s with ⟨hp, -⟩ | ⟨-, e⟩
  · exact absurd hi.1 (by omega)
  · unfold stepBy; rw [show s.run = .running from hr, e]; simp only [hi.2]

/-- The step of this machine runs the decoded instruction. -/
theorem step_exec {s : State} {i : Instr} (hr : s.Running) (hi : s.NextIs i) : step s = afterExec (exec i s) :=
  stepBy_exec exec hr hi

theorem step_unknown {s : State} {w : Word} {r : Reject} (hr : s.Running) (hf : fetch s = .ok w)
    (hd : decode w = .error r) : step s = .next (tick (unknownOpcode s w)) := by
  unfold step stepBy; rw [show s.run = .running from hr, hf]; simp only [hd]; rfl

theorem step_faulted {s : State} {f : CoreFault} (h : s.FaultedWith f) : step s = .fault (.coreFaulted f) := by
  unfold step stepBy; rw [show s.run = .faulted f from h]

/-- The word at PC decodes to at most one instruction. -/
theorem State.NextIs.unique {s : State} {i j : Instr} (hi : s.NextIs i) (hj : s.NextIs j) : i = j := by
  have := hi.2.symm.trans hj.2
  simpa using this

end Sys2Proof.Machine
end

