-- ==== Sys2Proof/Laws/Configured.lean ====
section
/-! SUPPORT. The machine under any parameters: how DXYN and FX1E can end, where the step differs from this machine's, and the defaults. -/

namespace Sys2Proof.Machine

/-! ### The two instructions a parameter reaches -/

/-- `FX1E` under any parameters raises IndexOverflow, or completes with the sum in I and VF as `FX1E_SETS_VF` says. -/
theorem addIWith_cases (p : Config.Params) (x : RegIx) (s : State) :
    (p.iOverflow = .fault ∧ 0xFFFF < s.i.toNat + (s.getV x).toNat ∧
      addIWith p x s = .next (s.recordFault (.indexOverflow (s.i.toNat + (s.getV x).toNat)))) ∨
    ∃ v, addIWith p x s = .next { s with
      v := v, i := BitVec.ofNat 16 (s.i.toNat + (s.getV x).toNat), pc := s.pc + 2#16, lastStep := some (.advanced []) } := by
  unfold addIWith
  simp only []
  split
  · rename_i h; exact .inl ⟨h.1, h.2, rfl⟩
  · right
    by_cases h : p.fx1eSetsVF = true
    · exact ⟨_, by rw [if_pos h]; rfl⟩
    · exact ⟨s.v, by rw [if_neg h]; rfl⟩

/-- `DXYN` under any parameters raises AddressFault, or completes with the plane, VF and DIRTY written. -/
theorem drawWith_cases (p : Config.Params) (x y : RegIx) (n : Nibble) (s : State) :
    drawWith p x y n s = .next (s.recordFault (.addressFault (max s.i.toNat 0x1000))) ∨
    ∃ v fb, drawWith p x y n s = .next { s with
      v := v, fb := fb, dirty := true, pc := s.pc + 2#16, lastStep := some (.advanced []) } := by
  unfold drawWith
  simp only []
  rcases withBytesAtI_cases s n.toNat (finishNext (State.setV
      { s with fb := (paint s.fb (spritePixels (s.getV x) (s.getV y) 0 (bytesAtI s n.toNat))).1, dirty := true } vf
      (collisionFlag p (s.getV vf)
        (paint s.fb (spritePixels (s.getV x) (s.getV y) 0 (bytesAtI s n.toNat))).2))) with ⟨-, -, e⟩ | ⟨-, e⟩ <;> rw [e]
  · exact .inl rfl
  · exact .inr ⟨_, _, rfl⟩

/-! ### exec and step -/

/-- Apart from the two instructions, parameters change no meaning. -/
theorem execWith_cases (p : Config.Params) (i : Instr) (s : State) :
    execWith p i s = exec i s ∨ (∃ x y n, i = .drw x y n ∧ execWith p i s = drawWith p x y n s) ∨
    ∃ x, i = .addIVx x ∧ execWith p i s = addIWith p x s := by
  cases i with
  | drw x y n => exact .inr (.inl ⟨x, y, n, rfl, rfl⟩)
  | addIVx x => exact .inr (.inr ⟨x, rfl, rfl⟩)
  | _ => exact .inl rfl

/-- Under any parameters every instruction answers a next state. -/
theorem execWith_next (p : Config.Params) (i : Instr) (s : State) : ∃ t, execWith p i s = .next t := by
  rcases execWith_cases p i s with e | ⟨x, y, n, -, e⟩ | ⟨x, -, e⟩ <;> rw [e]
  · exact exec_next i s
  · rcases drawWith_cases p x y n s with e | ⟨v, fb, e⟩ <;> exact ⟨_, e⟩
  · rcases addIWith_cases p x s with ⟨-, -, e⟩ | ⟨v, e⟩ <;> exact ⟨_, e⟩

/-- All that a step can do under any parameters (R89). -/
theorem stepWith_cases {p : Config.Params} {s t : State} (h : stepWith p s = .next t) :
    s.Running ∧
    ((0xFFF < s.pc.toNat + 1 ∧ t = s.recordFault (.fetchFault s.pc)) ∨
     (∃ i u, s.NextIs i ∧ execWith p i s = .next u ∧ t = afterInstruction u) ∨
     (∃ w, fetch s = .ok w ∧ decode w = .error (.unknownOpcode w) ∧ t = tick (unknownOpcode s w))) :=
  stepBy_cases (execWith_next p) h

/-- The step runs the decoded instruction under the same parameters. -/
theorem stepWith_exec (p : Config.Params) {s : State} {i : Instr} (hr : s.Running) (hi : s.NextIs i) :
    stepWith p s = afterExec (execWith p i s) := stepBy_exec (execWith p) hr hi

/-! ### The defaults -/

@[simp] theorem execWith_default : execWith Config.params = exec := by
  funext i s; cases i <;> rfl

@[simp] theorem stepWith_default : stepWith Config.params = step := by
  funext s; unfold stepWith step; rw [execWith_default]

@[simp] theorem constructed_default : State.constructed Config.params = State.reset := by
  unfold State.constructed; rw [Memory.installFont_default]; rfl

/-- A reset of this machine starts from memory with nothing listed. -/
theorem hostReset_eq (rom : List Byte) (s : State) : hostReset rom s =
    if romWellFormed rom then
      .ok { State.reset with mem := Memory.writeList [] Config.programBase rom, draws := s.draws }
    else .error (.tooLong rom.length) := by
  unfold hostReset hostResetWith; rw [constructed_default]; rfl

/-! ### Construction and reset -/

@[simp] theorem constructed_read (p : Config.Params) (a : Nat) : (State.constructed p).mem.read a =
    if a < Config.fontSize then p.font.toList.getD a 0#8 else Memory.unlisted a :=
  Memory.read_installFont p.font [] a

theorem constructed_wf (p : Config.Params) : (State.constructed p).mem.wf = true := Memory.wf_installFont rfl

/-- What a reset answers under any parameters, from any state. -/
theorem hostResetWith_cases (p : Config.Params) (rom : List Byte) (s : State) :
    (rom.length ≤ 3584 ∧ hostResetWith p rom s = .ok { State.constructed p with
      mem := (State.constructed p).mem.writeList Config.programBase rom, draws := s.draws }) ∨
    (3584 < rom.length ∧ hostResetWith p rom s = .error (.tooLong rom.length)) := by
  unfold hostResetWith
  by_cases h : rom.length ≤ 3584
  · exact .inl ⟨h, if_pos (decide_eq_true h)⟩
  · exact .inr ⟨by omega, if_neg (by simpa [romWellFormed] using h)⟩

end Sys2Proof.Machine
end

