-- ==== Sys2Proof/Laws/Display.lean ====
section
/-! SUPPORT. The plane: a flip changes one pixel; painting distinct pixels flips exactly those and finds the erased ones. -/

namespace Sys2Proof.Machine

/-- A flip changes the pixel it names and no other (R81). -/
theorem Plane.pixel_flip (fb : Plane) {p : Nat} (q : Nat) (hp : p < 2048) :
    Plane.pixel (Plane.flip fb p) q = (Plane.pixel fb q ^^ decide (q = p)) := by
  unfold Plane.pixel Plane.flip
  by_cases hrow : q / 64 = p / 64
  · have hlt : p / 64 < 32 := by omega
    rw [hrow, Vector.getElem?_setIfInBounds_self_of_lt hlt]
    simp only [Option.getD_some, BitVec.getLsbD_xor, BitVec.getLsbD_twoPow]
    have h64 : p % 64 < 64 := Nat.mod_lt _ (by decide)
    congr 1
    simp only [h64, decide_true, Bool.true_and, decide_eq_decide]
    constructor
    · intro h; omega
    · rintro rfl; rfl
  · rw [Vector.getElem?_setIfInBounds_ne (Ne.symm hrow)]
    have : q ≠ p := fun h => hrow (by rw [h])
    simp [this]

theorem paint_fold (pixels : List Nat) (fb : Plane) (hit : Bool) (hlt : ∀ p ∈ pixels, p < 2048) (hnd : pixels.Nodup) :
    (∀ q, Plane.pixel (pixels.foldl flipPixel (fb, hit)).1 q = (Plane.pixel fb q ^^ decide (q ∈ pixels))) ∧
    ((pixels.foldl flipPixel (fb, hit)).2 = (hit || pixels.any (Plane.pixel fb))) := by
  induction pixels generalizing fb hit with
  | nil => simp
  | cons p rest ih =>
    have hp : p < 2048 := hlt p (by simp)
    have hn := List.nodup_cons.1 hnd
    obtain ⟨h1, h2⟩ := ih (Plane.flip fb p) (hit || Plane.pixel fb p) (fun q hq => hlt q (by simp [hq])) hn.2
    refine ⟨fun q => ?_, ?_⟩
    · simp only [List.foldl_cons, flipPixel, h1, Plane.pixel_flip fb q hp, List.mem_cons]
      by_cases hq : q = p
      · subst hq; simp [hn.1]
      · simp [hq]
    · simp only [List.foldl_cons, flipPixel, h2, List.any_cons, Bool.or_assoc]
      congr 2
      have : ∀ q ∈ rest, Plane.pixel (Plane.flip fb p) q = Plane.pixel fb q := by
        intro q hq
        rw [Plane.pixel_flip fb q hp]
        have : q ≠ p := fun h => hn.1 (h ▸ hq)
        simp [this]
      rw [Bool.eq_iff_iff, List.any_eq_true, List.any_eq_true]
      exact ⟨fun ⟨q, hq, h⟩ => ⟨q, hq, this q hq ▸ h⟩, fun ⟨q, hq, h⟩ => ⟨q, hq, (this q hq).symm ▸ h⟩⟩

/-- Painting distinct pixels flips exactly those (R81). -/
theorem paint_pixel {fb : Plane} {pixels : List Nat} (hlt : ∀ p ∈ pixels, p < 2048) (hnd : pixels.Nodup) (q : Nat) :
    Plane.pixel (paint fb pixels).1 q = (Plane.pixel fb q ^^ decide (q ∈ pixels)) :=
  (paint_fold pixels fb false hlt hnd).1 q

/-- Painting distinct pixels erases one exactly when one of them was 1 (R81). -/
theorem paint_hit {fb : Plane} {pixels : List Nat} (hlt : ∀ p ∈ pixels, p < 2048) (hnd : pixels.Nodup) :
    (paint fb pixels).2 = pixels.any (Plane.pixel fb) := by
  simpa [paint] using (paint_fold pixels fb false hlt hnd).2

theorem pixelIndex_lt (xv yv : Byte) (row col : Nat) : pixelIndex xv yv row col < 2048 := Nat.mod_lt _ (by decide)

/-- Two places of one sprite of at most 32 rows are different pixels (R81). -/
theorem pixelIndex_inj {xv yv : Byte} {r r' c c' : Nat} (hr : r < 32) (hr' : r' < 32) (hc : c < 8) (hc' : c' < 8)
    (h : pixelIndex xv yv r c = pixelIndex xv yv r' c') : r = r' ∧ c = c' := by
  unfold pixelIndex Config.fbSize at h; omega

/-- The pixels of a sprite: one for each set bit (R81). -/
theorem mem_spritePixels {xv yv : Byte} {base : Nat} {sprite : List Byte} {p : Nat} :
    p ∈ spritePixels xv yv base sprite ↔
      ∃ k col, k < sprite.length ∧ col < 8 ∧ (sprite.getD k 0#8).getLsbD (7 - col) = true ∧
        p = pixelIndex xv yv (base + k) col := by
  induction sprite generalizing base with
  | nil => simp [spritePixels]
  | cons b rest ih =>
    simp only [spritePixels, List.mem_append, ih, rowPixels, List.mem_map, List.mem_filter, List.mem_range]
    constructor
    · rintro (⟨col, ⟨hc, hb⟩, rfl⟩ | ⟨k, col, hk, hc, hb, rfl⟩)
      · exact ⟨0, col, by simp, hc, by simpa using hb, rfl⟩
      · exact ⟨k + 1, col, by simpa using hk, hc, by simpa using hb, by rw [show base + 1 + k = base + (k + 1) by omega]⟩
    · rintro ⟨k, col, hk, hc, hb, rfl⟩
      cases k with
      | zero => exact .inl ⟨col, ⟨hc, by simpa using hb⟩, rfl⟩
      | succ k =>
        exact .inr ⟨k, col, by simpa using hk, hc, by simpa using hb, by rw [show base + 1 + k = base + (k + 1) by omega]⟩

theorem spritePixels_lt {xv yv : Byte} {base : Nat} {sprite : List Byte} :
    ∀ p ∈ spritePixels xv yv base sprite, p < 2048 := by
  intro p hp
  obtain ⟨k, col, -, -, -, rfl⟩ := mem_spritePixels.1 hp
  exact pixelIndex_lt ..

/-- Within one draw the touched pixels are pairwise distinct, so the loop order does not matter (R81). -/
theorem spritePixels_nodup {xv yv : Byte} {base : Nat} {sprite : List Byte} (h : base + sprite.length ≤ 32) :
    (spritePixels xv yv base sprite).Nodup := by
  induction sprite generalizing base with
  | nil => simp [spritePixels]
  | cons b rest ih =>
    simp only [List.length_cons] at h
    refine List.nodup_append.2 ⟨?_, ih (by omega), ?_⟩
    · refine List.Nodup.map_on ?_ (List.Nodup.filter _ List.nodup_range)
      intro c hc c' hc' e
      simp only [List.mem_filter, List.mem_range] at hc hc'
      exact (pixelIndex_inj (by omega) (by omega) hc.1 hc'.1 e).2
    · intro p hp q hq e
      subst e
      simp only [rowPixels, List.mem_map, List.mem_filter, List.mem_range] at hp
      obtain ⟨c, ⟨hc, -⟩, rfl⟩ := hp
      obtain ⟨k, c', hk, hc', -, e⟩ := mem_spritePixels.1 hq
      have := (pixelIndex_inj (by omega) (by omega) hc hc' e).1
      omega

@[simp] theorem pixel_blankPlane (p : Nat) : Plane.pixel blankPlane p = false := by
  unfold Plane.pixel blankPlane
  rw [Vector.getElem?_replicate]
  split <;> simp

end Sys2Proof.Machine
end

