-- ==== Sys2Proof/Laws/PerInstr.lean ====
section
/-! SUPPORT. Per-instruction laws: the word of an instruction fits the opcode table's row of its mnemonic. -/

namespace Sys2Proof

/-- Masking a concatenation whose parts are kept whole or cleared. -/
theorem and_append_of {n m : Nat} {a a' c : BitVec n} {b b' d : BitVec m} (h : a &&& a' = c) (h' : b &&& b' = d) :
    (a ++ b) &&& (a' ++ b') = c ++ d := by
  rw [BitVec.and_append, h, h']

theorem encNNN_masked (f : Nibble) (nnn : Addr12) : encNNN f nnn &&& 0xF000#16 = f ++ 0#12 :=
  and_append_of (a' := 0xF#4) (b' := 0#12) BitVec.and_allOnes BitVec.and_zero

theorem encXNN_masked (f : Nibble) (x : RegIx) (nn : Byte) :
    encXNN f x nn &&& 0xF0FF#16 = f ++ (0#4 ++ nn : Addr12) :=
  and_append_of (a' := 0xF#4) (b' := 0x0FF#12) BitVec.and_allOnes
    (and_append_of (a' := 0#4) (b' := 0xFF#8) BitVec.and_zero BitVec.and_allOnes)

theorem encXYN_masked (f : Nibble) (x : RegIx) (y n : Nibble) :
    encXYN f x y n &&& 0xF00F#16 = f ++ (0#4 ++ (0#4 ++ n : Byte) : Addr12) :=
  and_append_of (a' := 0xF#4) (b' := 0x00F#12) BitVec.and_allOnes
    (and_append_of (a' := 0#4) (b' := 0x0F#8) BitVec.and_zero
      (and_append_of (a' := 0#4) (b' := 0xF#4) BitVec.and_zero BitVec.and_allOnes))

end Sys2Proof

namespace Sys2Proof.Laws.EncodingFitsRow

/-- The instruction's word fits a row of the table that bears its mnemonic (R45, R46). -/
def Statement (i : Instr) : Prop := ∃ r ∈ opcodeTable, r.mnemonic = i.mnemonic ∧ r.fits (encode i) = true

/-- A word whose bits under a row's mask are its pattern gives the statement. -/
theorem of_row {i : Instr} (r : Row) (hr : r ∈ opcodeTable) (hm : r.mnemonic = i.mnemonic)
    (hw : encode i &&& r.mask = r.pattern) : Statement i :=
  ⟨r, hr, hm, by simp [Row.fits, hw]⟩

theorem cls : Statement .cls :=
  of_row ⟨"CLS", 0xFFFF, 0x00E0⟩ (by decide) rfl (rfl)

theorem ret : Statement .ret :=
  of_row ⟨"RET", 0xFFFF, 0x00EE⟩ (by decide) rfl (rfl)

theorem jp (nnn : Addr12) : Statement (.jp nnn) :=
  of_row ⟨"JP", 0xF000, 0x1000⟩ (by decide) rfl ((encNNN_masked _ _).trans (by decide))

theorem call (nnn : Addr12) : Statement (.call nnn) :=
  of_row ⟨"CALL", 0xF000, 0x2000⟩ (by decide) rfl ((encNNN_masked _ _).trans (by decide))

theorem seImm (x : RegIx) (nn : Byte) : Statement (.seImm x nn) :=
  of_row ⟨"SE_IMM", 0xF000, 0x3000⟩ (by decide) rfl ((encNNN_masked _ _).trans (by decide))

theorem sneImm (x : RegIx) (nn : Byte) : Statement (.sneImm x nn) :=
  of_row ⟨"SNE_IMM", 0xF000, 0x4000⟩ (by decide) rfl ((encNNN_masked _ _).trans (by decide))

theorem seReg (x y : RegIx) : Statement (.seReg x y) :=
  of_row ⟨"SE_REG", 0xF00F, 0x5000⟩ (by decide) rfl ((encXYN_masked _ _ _ _).trans (by decide))

theorem ldImm (x : RegIx) (nn : Byte) : Statement (.ldImm x nn) :=
  of_row ⟨"LD_IMM", 0xF000, 0x6000⟩ (by decide) rfl ((encNNN_masked _ _).trans (by decide))

theorem addImm (x : RegIx) (nn : Byte) : Statement (.addImm x nn) :=
  of_row ⟨"ADD_IMM", 0xF000, 0x7000⟩ (by decide) rfl ((encNNN_masked _ _).trans (by decide))

theorem ldReg (x y : RegIx) : Statement (.ldReg x y) :=
  of_row ⟨"LD_REG", 0xF00F, 0x8000⟩ (by decide) rfl ((encXYN_masked _ _ _ _).trans (by decide))

theorem orReg (x y : RegIx) : Statement (.orReg x y) :=
  of_row ⟨"OR", 0xF00F, 0x8001⟩ (by decide) rfl ((encXYN_masked _ _ _ _).trans (by decide))

theorem andReg (x y : RegIx) : Statement (.andReg x y) :=
  of_row ⟨"AND", 0xF00F, 0x8002⟩ (by decide) rfl ((encXYN_masked _ _ _ _).trans (by decide))

theorem xorReg (x y : RegIx) : Statement (.xorReg x y) :=
  of_row ⟨"XOR", 0xF00F, 0x8003⟩ (by decide) rfl ((encXYN_masked _ _ _ _).trans (by decide))

theorem addReg (x y : RegIx) : Statement (.addReg x y) :=
  of_row ⟨"ADD_REG", 0xF00F, 0x8004⟩ (by decide) rfl ((encXYN_masked _ _ _ _).trans (by decide))

theorem sub (x y : RegIx) : Statement (.sub x y) :=
  of_row ⟨"SUB", 0xF00F, 0x8005⟩ (by decide) rfl ((encXYN_masked _ _ _ _).trans (by decide))

theorem shr (x : RegIx) : Statement (.shr x) :=
  of_row ⟨"SHR", 0xF00F, 0x8006⟩ (by decide) rfl ((encXYN_masked _ _ _ _).trans (by decide))

theorem subn (x y : RegIx) : Statement (.subn x y) :=
  of_row ⟨"SUBN", 0xF00F, 0x8007⟩ (by decide) rfl ((encXYN_masked _ _ _ _).trans (by decide))

theorem shl (x : RegIx) : Statement (.shl x) :=
  of_row ⟨"SHL", 0xF00F, 0x800E⟩ (by decide) rfl ((encXYN_masked _ _ _ _).trans (by decide))

theorem sneReg (x y : RegIx) : Statement (.sneReg x y) :=
  of_row ⟨"SNE_REG", 0xF00F, 0x9000⟩ (by decide) rfl ((encXYN_masked _ _ _ _).trans (by decide))

theorem ldI (nnn : Addr12) : Statement (.ldI nnn) :=
  of_row ⟨"LD_I", 0xF000, 0xA000⟩ (by decide) rfl ((encNNN_masked _ _).trans (by decide))

theorem jpV0 (nnn : Addr12) : Statement (.jpV0 nnn) :=
  of_row ⟨"JP_V0", 0xF000, 0xB000⟩ (by decide) rfl ((encNNN_masked _ _).trans (by decide))

theorem rnd (x : RegIx) (nn : Byte) : Statement (.rnd x nn) :=
  of_row ⟨"RND", 0xF000, 0xC000⟩ (by decide) rfl ((encNNN_masked _ _).trans (by decide))

theorem drw (x y : RegIx) (n : Nibble) : Statement (.drw x y n) :=
  of_row ⟨"DRW", 0xF000, 0xD000⟩ (by decide) rfl ((encNNN_masked _ _).trans (by decide))

theorem skp (x : RegIx) : Statement (.skp x) :=
  of_row ⟨"SKP", 0xF0FF, 0xE09E⟩ (by decide) rfl ((encXNN_masked _ _ _).trans (by decide))

theorem sknp (x : RegIx) : Statement (.sknp x) :=
  of_row ⟨"SKNP", 0xF0FF, 0xE0A1⟩ (by decide) rfl ((encXNN_masked _ _ _).trans (by decide))

theorem ldVxDt (x : RegIx) : Statement (.ldVxDt x) :=
  of_row ⟨"LD_VX_DT", 0xF0FF, 0xF007⟩ (by decide) rfl ((encXNN_masked _ _ _).trans (by decide))

theorem ldVxK (x : RegIx) : Statement (.ldVxK x) :=
  of_row ⟨"LD_VX_K", 0xF0FF, 0xF00A⟩ (by decide) rfl ((encXNN_masked _ _ _).trans (by decide))

theorem ldDtVx (x : RegIx) : Statement (.ldDtVx x) :=
  of_row ⟨"LD_DT_VX", 0xF0FF, 0xF015⟩ (by decide) rfl ((encXNN_masked _ _ _).trans (by decide))

theorem ldStVx (x : RegIx) : Statement (.ldStVx x) :=
  of_row ⟨"LD_ST_VX", 0xF0FF, 0xF018⟩ (by decide) rfl ((encXNN_masked _ _ _).trans (by decide))

theorem addIVx (x : RegIx) : Statement (.addIVx x) :=
  of_row ⟨"ADD_I_VX", 0xF0FF, 0xF01E⟩ (by decide) rfl ((encXNN_masked _ _ _).trans (by decide))

theorem ldFVx (x : RegIx) : Statement (.ldFVx x) :=
  of_row ⟨"LD_F_VX", 0xF0FF, 0xF029⟩ (by decide) rfl ((encXNN_masked _ _ _).trans (by decide))

theorem ldBVx (x : RegIx) : Statement (.ldBVx x) :=
  of_row ⟨"LD_B_VX", 0xF0FF, 0xF033⟩ (by decide) rfl ((encXNN_masked _ _ _).trans (by decide))

theorem ldMemVx (x : RegIx) : Statement (.ldMemVx x) :=
  of_row ⟨"LD_MEM_VX", 0xF0FF, 0xF055⟩ (by decide) rfl ((encXNN_masked _ _ _).trans (by decide))

theorem ldVxMem (x : RegIx) : Statement (.ldVxMem x) :=
  of_row ⟨"LD_VX_MEM", 0xF0FF, 0xF065⟩ (by decide) rfl ((encXNN_masked _ _ _).trans (by decide))

end Sys2Proof.Laws.EncodingFitsRow
end

