-- ==== Sys2Proof/Tests/Slice0.lean ====
section
/-! SUPPORT. Small tests: ill-formed words and ROMs refused, words written out from the spec's patterns, one step of each instruction on the spec's own vectors (95_test_vectors.md), and a witness for the hypotheses of each statement. -/

namespace Sys2Proof.Tests

open Sys2Proof Sys2Proof.Machine

/-! ### Helpers -/

/-- The state after reset with some registers set. -/
def regs (l : List (RegIx × Byte)) : State := l.foldl (fun s p => s.setV p.1 p.2) State.reset

/-- The state with one byte of memory set. -/
def poke (a : Nat) (b : Byte) (s : State) : State := { s with mem := s.mem.write a b }

/-- The state with one key pressed. -/
def press (k : KeyIx) (s : State) : State := { s with keys := s.keys.set k.val true }

/-- The next state, where there is one. -/
def nextOf : Result → Option State
  | .next t => some t
  | .fault _ => none
  | .refused _ => none

/-- One step of the word at `PC`. -/
def after (w : Nat) (s : State) : Option State := nextOf (step (s.withFetchWord 16 w))

/-! ### Well-formedness: what the checks refuse (30_encoding.md R46; 95_test_vectors.md 2.6; R108) -/

theorem test_family_zero_refused :
    [0x0000#16, 0x0123#16, 0x01E0#16, 0x00E1#16, 0x00EF#16].all (fun w => !wordWellFormed w) = true := by decide

theorem test_skip_low_nibble_refused :
    [0x5001#16, 0x512F#16, 0x9121#16].all (fun w => !wordWellFormed w) = true := by decide

theorem test_family_eight_refused :
    [0x8008#16, 0x8009#16, 0x800A#16, 0x800B#16, 0x800C#16, 0x800D#16, 0x800F#16].all
      (fun w => !wordWellFormed w) = true := by decide

theorem test_families_e_and_f_refused :
    [0xE000#16, 0xE09F#16, 0xE0A0#16, 0xF000#16, 0xF0FF#16, 0xF019#16].all (fun w => !wordWellFormed w) = true := by
  decide

theorem test_rom_too_long_refused : romWellFormed (List.replicate 3585 0#8) = false := by
  rw [romWellFormed, List.length_replicate]; rfl

theorem test_longest_rom_taken : romWellFormed (List.replicate 3584 0#8) = true := by
  rw [romWellFormed, List.length_replicate]; rfl

/-! ### Decoding: words written out from the patterns of R46, high byte first (R35) -/

theorem test_decode_flow :
    decode 0x00EE#16 = .ok .ret ∧ decode 0x1ABC#16 = .ok (.jp 0xABC#12) ∧ decode 0x2F0E#16 = .ok (.call 0xF0E#12) ∧
    decode 0x3A5C#16 = .ok (.seImm 10 0x5C#8) ∧ decode 0x4B6D#16 = .ok (.sneImm 11 0x6D#8) ∧
    decode 0x5C30#16 = .ok (.seReg 12 3) ∧ decode 0x93C0#16 = .ok (.sneReg 3 12) ∧
    decode 0xBF01#16 = .ok (.jpV0 0xF01#12) :=
  ⟨rfl, rfl, rfl, rfl, rfl, rfl, rfl, rfl⟩

theorem test_decode_loads :
    decode 0x6E42#16 = .ok (.ldImm 14 0x42#8) ∧ decode 0x7F81#16 = .ok (.addImm 15 0x81#8) ∧
    decode 0x8A50#16 = .ok (.ldReg 10 5) ∧ decode 0xC10F#16 = .ok (.rnd 1 0x0F#8) :=
  ⟨rfl, rfl, rfl, rfl⟩

theorem test_decode_eight :
    decode 0x8121#16 = .ok (.orReg 1 2) ∧ decode 0x8342#16 = .ok (.andReg 3 4) ∧
    decode 0x8563#16 = .ok (.xorReg 5 6) ∧ decode 0x8784#16 = .ok (.addReg 7 8) ∧
    decode 0x89A5#16 = .ok (.sub 9 10) ∧ decode 0x8BC6#16 = .ok (.shr 11) ∧
    decode 0x8DE7#16 = .ok (.subn 13 14) ∧ decode 0x8F0E#16 = .ok (.shl 15) :=
  ⟨rfl, rfl, rfl, rfl, rfl, rfl, rfl, rfl⟩

theorem test_decode_display_and_keys :
    decode 0x00E0#16 = .ok .cls ∧ decode 0xD12E#16 = .ok (.drw 1 2 14#4) ∧ decode 0xE19E#16 = .ok (.skp 1) ∧
    decode 0xE2A1#16 = .ok (.sknp 2) :=
  ⟨rfl, rfl, rfl, rfl⟩

theorem test_decode_timers :
    decode 0xF307#16 = .ok (.ldVxDt 3) ∧ decode 0xF40A#16 = .ok (.ldVxK 4) ∧ decode 0xF515#16 = .ok (.ldDtVx 5) ∧
    decode 0xF618#16 = .ok (.ldStVx 6) :=
  ⟨rfl, rfl, rfl, rfl⟩

theorem test_decode_index :
    decode 0xA2F0#16 = .ok (.ldI 0x2F0#12) ∧ decode 0xF71E#16 = .ok (.addIVx 7) ∧
    decode 0xF829#16 = .ok (.ldFVx 8) ∧ decode 0xF933#16 = .ok (.ldBVx 9) ∧ decode 0xFA55#16 = .ok (.ldMemVx 10) ∧
    decode 0xFB65#16 = .ok (.ldVxMem 11) :=
  ⟨rfl, rfl, rfl, rfl, rfl, rfl⟩

theorem test_decode_bytes_high_first : decodeBytes [0x12#8, 0x34#8, 0xFF#8] = .ok (.jp 0x234#12, [0xFF#8]) := rfl

theorem test_decode_one_byte_refused : decodeBytes [0x12#8] = .error .tooShort := rfl

/-! ### One step of each instruction (95_test_vectors.md) -/

/-- S9, D1: DIRTY is set. -/
theorem test_cls :
    (after 0x00E0 { State.reset with fb := Vector.replicate 32 (BitVec.allOnes 64) }).map
      (fun t => (t.pixel 0, t.pixel 2047, t.dirty, t.pc)) = some (false, false, true, 0x202#16) := by decide

/-- F4. -/
theorem test_ret :
    (after 0x00EE { State.reset with pc := 0x400#16, sp := 1, stack := State.reset.stack.set 0 0x200#16 }).map
      (fun t => (t.sp, t.pc, t.stack.get 0)) = some (0, 0x202#16, 0x200#16) := by decide

/-- F6. -/
theorem test_ret_underflow :
    (after 0x00EE State.reset).map (fun t => (t.run, t.pc)) =
      some (.faulted (.stackUnderflow 0x200#16), 0x200#16) := by decide

/-- F1. -/
theorem test_jp : (after 0x1ABC State.reset).map (·.pc) = some 0xABC#16 := by decide

/-- F3. -/
theorem test_call :
    (after 0x2400 State.reset).map (fun t => (t.stack.get 0, t.sp, t.pc)) = some (0x200#16, 1, 0x400#16) := by decide

/-- F5. -/
theorem test_call_overflow :
    (after 0x2400 { State.reset with sp := 16 }).map (fun t => (t.run, t.sp, t.pc)) =
      some (.faulted (.stackOverflow 0x200#16), 16, 0x200#16) := by decide

/-- F7 and F8. -/
theorem test_se_imm :
    (after 0x3342 (regs [(3, 0x42#8)])).map (·.pc) = some 0x204#16 ∧
    (after 0x3342 (regs [(3, 0x41#8)])).map (·.pc) = some 0x202#16 := by decide

/-- F9 and F10. -/
theorem test_sne_imm :
    (after 0x4342 (regs [(3, 0x41#8)])).map (·.pc) = some 0x204#16 ∧
    (after 0x4342 (regs [(3, 0x42#8)])).map (·.pc) = some 0x202#16 := by decide

/-- F11 and F12. -/
theorem test_se_reg :
    (after 0x5120 (regs [(1, 7#8), (2, 7#8)])).map (·.pc) = some 0x204#16 ∧
    (after 0x5120 (regs [(1, 7#8), (2, 8#8)])).map (·.pc) = some 0x202#16 := by decide

/-- F14 and F15. -/
theorem test_sne_reg :
    (after 0x9120 (regs [(1, 7#8), (2, 8#8)])).map (·.pc) = some 0x204#16 ∧
    (after 0x9120 (regs [(1, 7#8), (2, 7#8)])).map (·.pc) = some 0x202#16 := by decide

/-- F17: no masking to 12 bits. -/
theorem test_jp_v0 : (after 0xBF01 (regs [(0, 0xFF#8)])).map (·.pc) = some 0x1000#16 := by decide

/-- S2. -/
theorem test_ld_imm : (after 0x6142 State.reset).map (fun t => (t.getV 1, t.pc)) = some (0x42#8, 0x202#16) := by decide

/-- R62's corner: a wrap leaves VF alone. -/
theorem test_add_imm :
    (after 0x7001 (regs [(0, 0xFF#8), (15, 0x55#8)])).map (fun t => (t.getV 0, t.getV vf)) = some (0x00#8, 0x55#8) := by
  decide

/-- R63's example. -/
theorem test_ld_reg :
    (after 0x8010 (regs [(1, 0x33#8)])).map (fun t => (t.getV 0, t.getV 1)) = some (0x33#8, 0x33#8) := by decide

/-- R64's example, VF kept. -/
theorem test_or :
    (after 0x8011 (regs [(0, 0xF0#8), (1, 0x0F#8), (15, 0x55#8)])).map (fun t => (t.getV 0, t.getV vf)) =
      some (0xFF#8, 0x55#8) := by decide

/-- R65's example. -/
theorem test_and :
    (after 0x8012 (regs [(0, 0xF0#8), (1, 0x3C#8)])).map (fun t => (t.getV 0, t.getV 1)) = some (0x30#8, 0x3C#8) := by
  decide

/-- R66's example. -/
theorem test_xor :
    (after 0x8013 (regs [(0, 0xFF#8), (1, 0x0F#8)])).map (fun t => (t.getV 0, t.getV 1)) = some (0xF0#8, 0x0F#8) := by
  decide

/-- S3. -/
theorem test_add_carry :
    (after 0x8014 (regs [(0, 0xFF#8), (1, 0x01#8)])).map (fun t => (t.getV 0, t.getV vf)) = some (0x00#8, 1#8) := by
  decide

/-- R67's corner, Y = 15. -/
theorem test_add_vf_source :
    (after 0x80F4 (regs [(0, 0x10#8), (15, 0xF5#8)])).map (fun t => (t.getV 0, t.getV vf)) = some (0x11#8, 1#8) := by
  decide

/-- S5. -/
theorem test_sub_borrow :
    (after 0x8015 (regs [(0, 0x01#8), (1, 0x02#8), (15, 9#8)])).map (fun t => (t.getV 0, t.getV vf)) =
      some (0xFF#8, 0#8) := by decide

/-- R68's example: equal operands give VF = 0. -/
theorem test_sub_equal :
    (after 0x8015 (regs [(0, 5#8), (1, 5#8), (15, 1#8)])).map (fun t => (t.getV 0, t.getV vf)) = some (0#8, 0#8) := by
  decide

/-- S6. -/
theorem test_shr :
    (after 0x8006 (regs [(0, 0x03#8)])).map (fun t => (t.getV 0, t.getV vf)) = some (0x01#8, 1#8) := by decide

/-- R70's examples. -/
theorem test_subn :
    (after 0x8017 (regs [(0, 2#8), (1, 5#8)])).map (fun t => (t.getV 0, t.getV vf)) = some (3#8, 1#8) ∧
    (after 0x8017 (regs [(0, 5#8), (1, 2#8)])).map (fun t => (t.getV 0, t.getV vf)) = some (0xFD#8, 0#8) := by decide

/-- S7. -/
theorem test_shl :
    (after 0x800E (regs [(0, 0x81#8)])).map (fun t => (t.getV 0, t.getV vf)) = some (0x02#8, 1#8) := by decide

/-- R71's corner, X = 15. -/
theorem test_shl_vf : (after 0x8F0E (regs [(15, 0x81#8)])).map (·.getV vf) = some 2#8 := by decide

/-- R49: CXNN goes on at `PC + 2`. -/
theorem test_rnd_pc : (after 0xC0FF State.reset).map (fun t => (t.pc, t.run)) = some (0x202#16, .running) := by decide

/-- R74's example. -/
theorem test_ld_i : (after 0xA2F0 State.reset).map (·.i) = some 0x2F0#16 := by decide

/-- R75's corner: past 0xFFF, no flag. -/
theorem test_add_i :
    (after 0xF01E { regs [(0, 5#8), (15, 9#8)] with i := 0xFFE#16 }).map (fun t => (t.i, t.getV vf)) =
      some (0x1003#16, 9#8) := by decide

/-- R75, D7. -/
theorem test_add_i_overflow :
    (after 0xF01E { regs [(0, 1#8)] with i := 0xFFFF#16 }).map (fun t => (t.run, t.i)) =
      some (.faulted (.indexOverflow 0x10000), 0xFFFF#16) := by decide

/-- R76's example, and a V[x] above a nibble. -/
theorem test_ld_f :
    (after 0xF029 (regs [(0, 0x0A#8)])).map (·.i) = some 0x032#16 ∧
    (after 0xF029 (regs [(0, 0xFF#8)])).map (·.i) = some 0x4FB#16 := by decide

/-- R77's example. -/
theorem test_ld_b :
    (after 0xF533 { regs [(5, 0x7B#8)] with i := 0x300#16 }).map
      (fun t => [t.mem.read 0x300, t.mem.read 0x301, t.mem.read 0x302, t.mem.read 0x303]) =
      some [1#8, 2#8, 3#8, 0#8] := by decide

/-- R77: I + 2 above 0xFFF, nothing written. -/
theorem test_ld_b_fault :
    (after 0xF533 { regs [(5, 0x7B#8)] with i := 0xFFE#16 }).map (fun t => (t.run, t.mem.read 0xFFE)) =
      some (.faulted (.addressFault 0x1000), 0#8) := by decide

/-- R78's example. -/
theorem test_ld_mem_vx :
    (after 0xF255 { regs [(0, 0x11#8), (1, 0x22#8), (2, 0x33#8), (3, 0x44#8)] with i := 0x400#16 }).map
      (fun t => ([t.mem.read 0x400, t.mem.read 0x401, t.mem.read 0x402, t.mem.read 0x403], t.i)) =
      some ([0x11#8, 0x22#8, 0x33#8, 0#8], 0x400#16) := by decide

/-- R79's example, V3 kept. -/
theorem test_ld_vx_mem :
    (after 0xF265 (poke 0x300 1#8 (poke 0x301 2#8 (poke 0x302 3#8 { regs [(3, 7#8)] with i := 0x300#16 })))).map
      (fun t => ([t.getV 0, t.getV 1, t.getV 2, t.getV 3], t.i)) = some ([1#8, 2#8, 3#8, 7#8], 0x300#16) := by decide

/-- D4: the linear wrap past pixel 2047. -/
theorem test_drw_wraps :
    (after 0xD011 (poke 0x300 0xC0#8 { regs [(0, 63#8), (1, 31#8)] with i := 0x300#16 })).map
      (fun t => (t.pixel 2047, t.pixel 0, t.pixel 63, t.getV vf, t.dirty)) = some (true, true, false, 0#8, true) := by
  decide

/-- D10: one collision is enough. -/
theorem test_drw_collision :
    (after 0xD011 (poke 0x300 0xC0#8
        { State.reset with i := 0x300#16, fb := State.reset.fb.set 0 1#64 })).map
      (fun t => (t.pixel 0, t.pixel 1, t.getV vf)) = some (false, true, 1#8) := by decide

/-- K1 and K2. -/
theorem test_skp :
    (after 0xE09E (press 5 (regs [(0, 5#8)]))).map (·.pc) = some 0x204#16 ∧
    (after 0xE09E (regs [(0, 5#8)])).map (·.pc) = some 0x202#16 := by decide

/-- K3 and K4. -/
theorem test_sknp :
    (after 0xE0A1 (regs [(0, 5#8)])).map (·.pc) = some 0x204#16 ∧
    (after 0xE0A1 (press 5 (regs [(0, 5#8)]))).map (·.pc) = some 0x202#16 := by decide

/-- K5. -/
theorem test_key_index_fault :
    (after 0xE0A1 (regs [(0, 0x10#8)])).map (·.run) = some (.faulted (.keyIndexFault 0x10#8)) := by decide

/-- K6. -/
theorem test_ld_vx_dt :
    (after 0xF307 { State.reset with dt := 4#8 }).map (fun t => (t.getV 3, t.dt)) = some (4#8, 3#8) := by decide

/-- K13. -/
theorem test_ld_vx_k_blocked :
    (after 0xF30A { State.reset with dt := 5#8, st := 5#8 }).map
      (fun t => (t.getV 3, t.pc, t.dt, t.st, t.lastStep)) =
      some (0#8, 0x200#16, 5#8, 5#8, some .blocked) := by decide

/-- K14. -/
theorem test_ld_vx_k :
    (after 0xF30A (press 7 { State.reset with dt := 5#8, st := 5#8 })).map
      (fun t => (t.getV 3, t.pc, t.dt, t.st)) = some (7#8, 0x202#16, 4#8, 4#8) := by decide

/-- K8. -/
theorem test_ld_dt_vx : (after 0xF015 (regs [(0, 5#8)])).map (·.dt) = some 4#8 := by decide

/-- K10 and K11. -/
theorem test_ld_st_vx :
    (after 0xF018 (regs [(0, 1#8)])).map (fun t => (t.st, t.lastStep)) = some (0#8, some (.advanced [.beep])) ∧
    (after 0xF018 { State.reset with st := 1#8 }).map (fun t => (t.st, t.lastStep)) =
      some (0#8, some (.advanced [])) := by decide

/-- S12, and the order of the events (R94). -/
theorem test_unknown_opcode :
    (after 0x5001 { State.reset with st := 1#8 }).map (fun t => (t.pc, t.run, t.lastStep)) =
      some (0x202#16, .running, some (.advanced [.unknownOpcode 0x5001#16, .beep])) := by decide

/-- M3 under Wrap16, M4 under FX1E_SETS_VF, D8 under DRAW_CLEARS_VF false. -/
theorem test_parameters :
    (nextOf (stepWith { Config.params with iOverflow := .wrap16 }
      (({ regs [(0, 1#8)] with i := 0xFFFF#16 } : State).withFetchWord 16 0xF01E))).map (·.i) = some 0#16 ∧
    (nextOf (stepWith { Config.params with fx1eSetsVF := true }
      (({ regs [(0, 1#8)] with i := 0x0FFF#16 } : State).withFetchWord 16 0xF01E))).map (fun t => (t.i, t.getV vf)) =
      some (0x1000#16, 1#8) ∧
    (nextOf (stepWith { Config.params with drawClearsVF := false }
      ((regs [(15, 0x55#8)]).withFetchWord 16 0xD010))).map (fun t => (t.dirty, t.getV vf)) = some (true, 0x55#8) := by
  decide

/-- R31 with another FONT: its bytes at 0x000 to 0x04F, the ROM at 0x200, zero between. -/
theorem test_other_font :
    (State.constructed { Config.params with font := Vector.replicate 80 0xAA#8 }).mem.read 0x04F = 0xAA#8 ∧
    (State.constructed { Config.params with font := Vector.replicate 80 0xAA#8 }).mem.read 0x050 = 0#8 := by
  constructor <;> rw [constructed_read] <;> decide

/-- R30: the glyph "A", which FX29 points I at (M5). -/
theorem test_font_glyph :
    (List.range 5).map (fun row => State.reset.mem.read (0x032 + row)) = [0xF0#8, 0x90#8, 0xF0#8, 0x90#8, 0x90#8] := by
  decide

/-- F21. -/
theorem test_fetch_fault :
    (after 0 { State.reset with pc := 0xFFF#16 }).map (fun t => (t.run, t.pc)) =
      some (.faulted (.fetchFault 0xFFF#16), 0xFFF#16) := by decide

/-- X5: no tick on a fault. -/
theorem test_fault_no_tick :
    (after 0x00EE { State.reset with dt := 3#8 }).map (·.dt) = some 3#8 := by decide

/-- X1. -/
theorem test_faulted_has_no_step :
    step { State.reset with run := .faulted (.fetchFault 0xFFF#16) } =
      .fault (.coreFaulted (.fetchFault 0xFFF#16)) := rfl

/-! ### Witnesses: states and operands that meet the hypotheses of each statement -/

/-- A running state whose next word is `w`. -/
def next (w : Nat) (s : State) : State := s.withFetchWord 16 w

/-- A faulted state. -/
def down : State := { State.reset with run := .faulted (.stackUnderflow 0x200#16), lastStep := some (.faulted (.stackUnderflow 0x200#16)) }

/-- The state after a step that is known to have one. -/
def stepped (s : State) : State :=
  match step s with
  | .next t => t
  | .fault _ => s
  | .refused _ => s

/-- The state after an instruction that is known to give one. -/
def ran (i : Instr) (s : State) : State :=
  match exec i s with
  | .next t => t
  | .fault _ => s
  | .refused _ => s

/-- EncodeOfDecodeIsTheWord, DecodeFollowsTheOpcodeTable (first clause): a word with a nonzero ignored nibble. -/
theorem test_witness_decoded_word : decode 0x80F6#16 = .ok (.shr 0) ∧ clearIgnored 0x80F6#16 = 0x8006#16 := ⟨rfl, rfl⟩

/-- DecodeFollowsTheOpcodeTable: an unknown word, and a row with a word that fits it. -/
theorem test_witness_table :
    decode 0x01E0#16 = .error (.unknownOpcode 0x01E0#16) ∧ wordWellFormed 0x01E0#16 = false ∧
    (⟨"SKP", 0xF0FF, 0xE09E⟩ : Row) ∈ opcodeTable ∧ (⟨"SKP", 0xF0FF, 0xE09E⟩ : Row).fits 0xE59E#16 = true := by
  refine ⟨rfl, ?_, ?_, ?_⟩ <;> decide

/-- CallPushesItsOwnAddress, CallThenReturnResumesAfterTheCall: the last free slot, and the full stack. -/
theorem test_witness_call :
    ({ State.reset with sp := 15 } : State).sp.val < 16 ∧ ({ State.reset with sp := 16 } : State).sp.val = 16 := by
  decide

/-- CallThenReturnResumesAfterTheCall: a called routine's state. -/
theorem test_witness_call_then_return :
    State.reset.sp.val < 16 ∧ exec (.call 0x300#12) State.reset = .next (ran (.call 0x300#12) State.reset) ∧
    ({ ran (.call 0x300#12) State.reset with pc := 0x30A#16 } : State).sp = (ran (.call 0x300#12) State.reset).sp ∧
    ({ ran (.call 0x300#12) State.reset with pc := 0x30A#16 } : State).stack =
      (ran (.call 0x300#12) State.reset).stack := ⟨by decide, rfl, rfl, rfl⟩

/-- ReturnResumesAfterTheCall: one entry, sixteen entries, none. -/
theorem test_witness_return :
    ({ State.reset with sp := 1 } : State).sp.val = (0 : Fin 16).val + 1 ∧
    ({ State.reset with sp := 16 } : State).sp.val = (15 : Fin 16).val + 1 ∧ State.reset.sp.val = 0 := by decide

/-- CompareSkipsAdvanceByFourOrTwo: words of families 5 and 9 whose low nibble is not 0. -/
theorem test_witness_skip_words :
    family 0x5001#16 = 0x5#4 ∧ nibbleN 0x5001#16 ≠ 0#4 ∧ family 0x912F#16 = 0x9#4 ∧ nibbleN 0x912F#16 ≠ 0#4 := by
  decide

/-- RandomIsMaskedByTheImmediate: a bit outside the immediate. -/
theorem test_witness_mask_bit : (0x0F#8).getLsbD 4 = false := by decide

/-- AddSetsCarryThenSum, SubtractSetsStrictFlagThenDifference, ShiftsCaptureTheBitThenShift: a register that is not VF. -/
theorem test_witness_not_vf : (14 : RegIx) ≠ vf := by decide

/-- AddToIndexIsExactOrOverflows: sums of 0xFFFF and of 0x10000, and the other parameters. -/
theorem test_witness_index_sum :
    ({ regs [(0, 1#8)] with i := 0xFFFE#16 } : State).i.toNat + ((regs [(0, 1#8)]).getV 0).toNat ≤ 0xFFFF ∧
    0xFFFF < ({ regs [(0, 1#8)] with i := 0xFFFF#16 } : State).i.toNat + ((regs [(0, 1#8)]).getV 0).toNat ∧
    ({ Config.params with iOverflow := .wrap16 } : Config.Params).iOverflow = .wrap16 ∧
    Config.params.iOverflow = .fault := by decide

/-- BcdStoresThreeDigits: the last three bytes of memory, and one further. -/
theorem test_witness_bcd :
    effAddr { State.reset with i := 0xFFD#16 } 2 ≤ 0xFFF ∧ 0xFFF < effAddr { State.reset with i := 0xFFE#16 } 2 := by
  decide

/-- StoreRegistersWritesConsecutiveBytes, LoadRegistersReadsConsecutiveBytes: the last sixteen bytes, and one further;
registers within and past x. -/
theorem test_witness_transfer :
    effAddr { State.reset with i := 0xFF0#16 } (15 : RegIx).val ≤ 0xFFF ∧
    0xFFF < effAddr { State.reset with i := 0xFF1#16 } (15 : RegIx).val ∧ (15 : RegIx) ≤ 15 ∧ (14 : RegIx) < 15 := by
  decide

/-- DrawFlipsTheSpritePixels, DrawingTwiceRestoresThePlane: no row at any I, a row at 0xFFF, a row above it. -/
theorem test_witness_draw_range :
    effAddr { State.reset with i := 0xFFF#16 } ((1#4).toNat - 1) ≤ 0xFFF ∧ (2#4 : Nibble) ≠ 0#4 ∧
    0xFFF < effAddr { State.reset with i := 0xFFF#16 } ((2#4).toNat - 1) ∧ (0#4 : Nibble) = 0#4 ∧
    (13 : RegIx) ≠ vf ∧ (14 : RegIx) ≠ vf ∧ ({ Config.params with drawClearsVF := false } : Config.Params).drawClearsVF = false := by
  decide

/-- DrawFlipsTheSpritePixels: a set sprite bit on a pixel that is 1 (the glyph "0" at the top left). -/
theorem test_witness_collision :
    ∃ p, SpriteLands State.reset 0 0 1#4 p ∧ ({ State.reset with fb := State.reset.fb.set 0 1#64 } : State).pixel p = true :=
  ⟨0, ⟨0, 0, by decide, by decide, by decide, by decide⟩, by decide⟩

/-- DrawFlipsTheSpritePixels, DrawingTwiceRestoresThePlane: a draw with no collision. -/
theorem test_witness_no_collision :
    (¬ ∃ p, SpriteLands State.reset 0 0 1#4 p ∧ State.reset.pixel p = true) ∧
    ∃ p, SpriteLands State.reset 0 0 1#4 p ∧ State.reset.pixel p = false := by
  refine ⟨?_, 0, ⟨0, 0, by decide, by decide, by decide, by decide⟩, by decide⟩
  rintro ⟨p, ⟨row, col, -, -, -, rfl⟩, hp⟩
  rw [State.pixel, show State.reset.fb = blankPlane from rfl, pixel_blankPlane] at hp
  cases hp

/-- KeySkipsTestTheNamedKey: the last key, and the first value that names none. -/
theorem test_witness_key :
    ((regs [(0, 15#8)]).getV 0).toNat = (15 : KeyIx).val ∧ 15 < ((regs [(0, 16#8)]).getV 0).toNat := by decide

/-- TimerAccessPrecedesTheTick: running, and each of the three instructions next. -/
theorem test_witness_timer_access :
    (next 0xF307 State.reset).Running ∧ (next 0xF307 State.reset).NextIs (.ldVxDt 3) ∧
    (next 0xF315 State.reset).NextIs (.ldDtVx 3) ∧ (next 0xF318 State.reset).NextIs (.ldStVx 3) :=
  ⟨rfl, ⟨by decide, rfl⟩, ⟨by decide, rfl⟩, ⟨by decide, rfl⟩⟩

/-- KeyWaitBlocksUntilAKeyIsPressed, WriteKeysEndsTheWait, OnlyTheKeyWaitBlocks: FX0A next with no key pressed, a key
that can be pressed, and the blocked step. -/
theorem test_witness_key_wait :
    (next 0xF50A State.reset).Running ∧ (next 0xF50A State.reset).NextIs (.ldVxK 5) ∧
    (∀ k, (next 0xF50A State.reset).key k = false) ∧ (∃ k, (press 12 (next 0xF50A State.reset)).key k = true) ∧
    (∃ k, (press 12 State.reset).keys.get k = true) ∧
    step (next 0xF50A State.reset) = .next { next 0xF50A State.reset with lastStep := some .blocked } :=
  ⟨rfl, ⟨by decide, rfl⟩, by decide, ⟨12, by decide⟩, ⟨12, by decide⟩, rfl⟩

/-- FetchIsBigEndianOrFaults, StepHasOneOfThreeOutcomes: the last address a fetch takes, and the first it does not. -/
theorem test_witness_fetch :
    ({ State.reset with pc := 0xFFE#16 } : State).pc.toNat + 1 ≤ 0xFFF ∧
    0xFFF < ({ State.reset with pc := 0xFFF#16 } : State).pc.toNat + 1 ∧
    ({ State.reset with pc := 0xFFF#16 } : State).Running := ⟨by decide, by decide, rfl⟩

/-- StepIsExecOfTheDecodedInstruction, StepHasOneOfThreeOutcomes: an instruction that advances and one that faults. -/
theorem test_witness_step :
    (next 0x6142 State.reset).Running ∧ (next 0x6142 State.reset).NextIs (.ldImm 1 0x42#8) ∧
    (ran (.ldImm 1 0x42#8) State.reset).lastStep = some (.advanced []) ∧
    exec .ret State.reset = .next (State.reset.recordFault (.stackUnderflow 0x200#16)) ∧
    down.FaultedWith (.stackUnderflow 0x200#16) := ⟨rfl, ⟨by decide, rfl⟩, rfl, rfl, rfl⟩

/-- UnknownOpcodeIsReportedAndSkipped, StepHasOneOfThreeOutcomes: a running machine at an unknown word. -/
theorem test_witness_unknown :
    State.reset.Running ∧ fetch State.reset = .ok 0x0000#16 ∧
    decode 0x0000#16 = .error (.unknownOpcode 0x0000#16) ∧ ∀ i, decode 0x0000#16 ≠ .ok i :=
  ⟨rfl, by decide, rfl, fun i h => nomatch (show (.error (.unknownOpcode 0x0000#16) : Except Reject Instr) = .ok i from h)⟩

/-- FaultingStepChangesOnlyRun, StepFaultsExactlyAsTabled: a step that faults. -/
theorem test_witness_faulting_step :
    (next 0x00EE State.reset).Running ∧
    step (next 0x00EE State.reset) = .next ((next 0x00EE State.reset).recordFault (.stackUnderflow 0x200#16)) ∧
    StepRaises (next 0x00EE State.reset) (.stackUnderflow 0x200#16) :=
  ⟨rfl, rfl, .inr ⟨.ret, ⟨by decide, rfl⟩, rfl, rfl⟩⟩

/-- StepFaultsExactlyAsTabled: the other five faults, each at its boundary. -/
theorem test_witness_raises :
    RaisesIn (.call 0x300#12) { State.reset with sp := 16 } (.stackOverflow 0x200#16) ∧
    RaisesIn (.skp 0) (regs [(0, 16#8)]) (.keyIndexFault 16#8) ∧
    RaisesIn (.addIVx 0) { regs [(0, 1#8)] with i := 0xFFFF#16 } (.indexOverflow 0x10000) ∧
    RaisesIn (.ldBVx 0) { State.reset with i := 0xFFE#16 } (.addressFault 0x1000) ∧
    RaisesIn (.drw 0 1 2#4) { State.reset with i := 0xFFF#16 } (.addressFault 0x1000) ∧
    StepRaises { State.reset with pc := 0xFFF#16 } (.fetchFault 0xFFF#16) :=
  ⟨⟨rfl, rfl⟩, ⟨by decide, rfl⟩, ⟨by decide, rfl⟩, ⟨by decide, rfl⟩, ⟨by decide, by decide, rfl⟩, .inl ⟨by decide, rfl⟩⟩

/-- OnlyResetLeavesFaulted: a reset that leaves a fault. -/
theorem test_witness_leaving_fault :
    down.FaultedWith (.stackUnderflow 0x200#16) ∧
    (Move.host (.reset [])).next down = some State.reset ∧
    ¬ State.reset.FaultedWith (.stackUnderflow 0x200#16) ∧ hostReset [] down = .ok State.reset :=
  ⟨rfl, rfl, fun h => (nomatch (show RunStatus.running = .faulted _ from h)), rfl⟩

/-- StepEmitsAtMostOneOfEachEvent, TickCountsDownAndBeeps: advancing steps with no event, one, and both. -/
theorem test_witness_events :
    (stepped (next 0x6142 State.reset)).lastStep = some (.advanced []) ∧
    (stepped (next 0x6142 { State.reset with st := 1#8 })).lastStep = some (.advanced [.beep]) ∧
    (stepped { State.reset with st := 1#8 }).lastStep = some (.advanced [.unknownOpcode 0#16, .beep]) ∧
    step (next 0x6142 State.reset) = .next (stepped (next 0x6142 State.reset)) := ⟨by decide, by decide, by decide, rfl⟩

/-- A jump to itself with ST = 2, and the two states after it. -/
def restRun : Nat → State
  | 0 => next 0x1200 { State.reset with st := 2#8 }
  | 1 => next 0x1200 { State.reset with st := 1#8, lastStep := some (.advanced []) }
  | _ => next 0x1200 { State.reset with st := 0#8, lastStep := some (.advanced [.beep]) }

/-- TimersFallByOneEachStep: a run of two steps of a jump to itself, ST from 2 to 0. -/
theorem test_witness_advancing_run :
    AdvancingRun 2 restRun ∧ ∀ k, k < 2 → ∀ x, ¬ (restRun k).NextIs (.ldDtVx x) ∧ ¬ (restRun k).NextIs (.ldStVx x) := by
  have jp : ∀ k, k < 2 → (restRun k).NextIs (.jp 0x200#12)
    | 0, _ => ⟨by decide, rfl⟩
    | 1, _ => ⟨by decide, rfl⟩
  refine ⟨fun k hk => ?_, fun k hk x => ⟨fun h => ?_, fun h => ?_⟩⟩
  · match k, hk with
    | 0, _ => exact ⟨rfl, [], rfl⟩
    | 1, _ => exact ⟨rfl, [.beep], rfl⟩
  · exact nomatch (jp k hk).unique h
  · exact nomatch (jp k hk).unique h

/-- EveryInstructionKeepsItsFrame: an instruction that gives a next state. -/
theorem test_witness_frame : exec (.ldImm 1 0x42#8) State.reset = .next (ran (.ldImm 1 0x42#8) State.reset) := rfl

/-- DirtyIsSetByDrawingAndClearedByTheHost: steps that set DIRTY, one that finds it set, one that changes a pixel, and
the host's clearing. -/
theorem test_witness_dirty :
    step (next 0x00E0 State.reset) = .next (stepped (next 0x00E0 State.reset)) ∧
    (next 0x00E0 State.reset).NextIs .cls ∧ (stepped (next 0x00E0 State.reset)).lastStep = some (.advanced []) ∧
    (stepped (next 0x00E0 State.reset)).dirty ≠ (next 0x00E0 State.reset).dirty ∧
    step (next 0xD011 State.reset) = .next (stepped (next 0xD011 State.reset)) ∧
    (next 0xD011 State.reset).NextIs (.drw 0 1 1#4) ∧
    (∃ p, (stepped (next 0xD011 State.reset)).pixel p ≠ (next 0xD011 State.reset).pixel p) ∧
    ({ State.reset with dirty := true } : State).dirty = true ∧
    (hostAct .consumeFrame { State.reset with dirty := true }).dirty = false :=
  ⟨rfl, ⟨by decide, rfl⟩, by decide, by decide, rfl, ⟨by decide, rfl⟩, ⟨0, by decide⟩, rfl, rfl⟩

/-- KeypadIsWrittenByTheHostOnly: a host move that changes KEY. -/
theorem test_witness_keypad :
    (hostAct (.writeKeys (State.reset.keys.set 3 true)) State.reset).keys ≠ State.reset.keys := by decide

/-- OnlyTwoInstructionsWriteMemory: a step that changes a byte. -/
theorem test_witness_memory_write :
    (stepped (next 0xF033 { regs [(0, 123#8)] with i := 0x300#16 })).mem.read 0x302 ≠
      (next 0xF033 { regs [(0, 123#8)] with i := 0x300#16 }).mem.read 0x302 ∧
    (stepped (next 0xF155 { regs [(1, 9#8)] with i := 0xFFE#16 })).mem.read 0xFFF ≠
      (next 0xF155 { regs [(1, 9#8)] with i := 0xFFE#16 }).mem.read 0xFFF := by decide

/-- RegistersIndexAndStackHaveNamedWriters: steps that change a register, I, and SP with the stack. -/
theorem test_witness_writers :
    (stepped (next 0x6142 State.reset)).getV 1 ≠ (next 0x6142 State.reset).getV 1 ∧
    (stepped (next 0xA300 State.reset)).i ≠ (next 0xA300 State.reset).i ∧
    (stepped (next 0x2300 State.reset)).sp ≠ (next 0x2300 State.reset).sp ∧
    (stepped (next 0x2300 State.reset)).stack ≠ (next 0x2300 State.reset).stack := by decide

/-- StepKeepsTheInvariant, HostMovesKeepTheInvariant: a state that meets the invariant, with a step and a load. -/
theorem test_witness_invariant :
    State.reset.Inv ∧ step State.reset = .next (stepped State.reset) ∧ hostLoad [] State.reset = .ok State.reset :=
  ⟨⟨by decide, by decide, fun k h => absurd h (Nat.not_lt_zero _), fun f => by simp [State.reset]⟩, rfl, rfl⟩

/-- ReachableStatesMeetTheInvariant: a loaded machine, and one step of it. -/
theorem test_witness_reachable : Reachable State.reset ∧ Reachable (stepped State.reset) :=
  ⟨.load [] _ rfl, .move .step _ _ (.load [] _ rfl) rfl⟩

/-- PcArithmeticIsExactUnderTheInvariant: a state that meets the invariant at a return with one entry; and the last PC a
fetch takes, at an unknown word. -/
theorem test_witness_pc_arithmetic :
    (next 0x00EE { State.reset with sp := 1 }).Inv ∧ (next 0x00EE { State.reset with sp := 1 }).NextIs .ret ∧
    (next 0x00EE { State.reset with sp := 1 }).pop = some (0#16, next 0x00EE State.reset) ∧
    ({ State.reset with pc := 0xFFE#16 } : State).Inv ∧ ({ State.reset with pc := 0xFFE#16 } : State).pc.toNat + 1 ≤ 0xFFF :=
  ⟨⟨by decide, by decide, by decide, fun f => by simp [next, State.withFetchWord, State.reset]⟩, ⟨by decide, rfl⟩, rfl,
    ⟨by decide, by decide, fun k h => absurd h (Nat.not_lt_zero _), fun f => by simp [State.reset]⟩, by decide⟩

/-- CanonicalMemoriesThatReadAlikeAreEqual: two ways to the same memory. -/
theorem test_witness_canonical :
    Memory.wf [(0x300, 1#8)] = true ∧ Memory.wf (Memory.write (Memory.write [] 0x300 2#8) 0x300 1#8) = true ∧
    ∀ a, a < 4096 →
      Memory.read [(0x300, 1#8)] a = Memory.read (Memory.write (Memory.write [] 0x300 2#8) 0x300 1#8) a :=
  ⟨by decide, by decide, fun _ _ => rfl⟩

/-- Writing back what reset left there takes the cell off the list. -/
theorem test_write_back_unlists :
    Memory.write (Memory.write [] 0x000 1#8) 0x000 0xF0#8 = [] ∧ Memory.write (Memory.write [] 0x300 1#8) 0x300 0#8 = [] :=
  ⟨by decide, by decide⟩

/-- ResetRebuildsMemoryAndRegisters, LoaderCopiesTheRom, ResetClearsDisplayAndKeypad: the longest ROM, one longer, and a
reset that succeeds. -/
theorem test_witness_rom :
    (List.replicate 3584 1#8).length ≤ 3584 ∧ 3584 < (List.replicate 3585 1#8).length ∧
    hostReset [] down = .ok State.reset := by
  rw [List.length_replicate, List.length_replicate]
  exact ⟨by decide, by decide, rfl⟩

/-- FetchWordIsRunNext: running, at the last address a fetch takes, with a word that decodes. -/
theorem test_witness_fetch_word :
    ({ State.reset with pc := 0xFFE#16 } : State).Running ∧
    ({ State.reset with pc := 0xFFE#16 } : State).pc.toNat + 1 ≤ 0xFFF ∧
    decodeTableWord 16 0x1200 = some (.jp 0x200#12) := ⟨rfl, by decide, rfl⟩

/-- StoredBytesAreFetched: V0 and V1 stored at the last two bytes, and fetched from there. -/
theorem test_witness_stored_bytes :
    (0 : RegIx).val + 1 ≤ (1 : RegIx).val ∧
    exec (.ldMemVx 1) { regs [(0, 0x12#8)] with i := 0xFFE#16 } =
      .next (ran (.ldMemVx 1) { regs [(0, 0x12#8)] with i := 0xFFE#16 }) ∧
    effAddr { regs [(0, 0x12#8)] with i := 0xFFE#16 } (1 : RegIx).val ≤ 0xFFF ∧
    ({ ran (.ldMemVx 1) { regs [(0, 0x12#8)] with i := 0xFFE#16 } with pc := 0xFFE#16 } : State).pc.toNat =
      effAddr { regs [(0, 0x12#8)] with i := 0xFFE#16 } (0 : RegIx).val :=
  ⟨by decide, rfl, by decide, by decide⟩

/-- ParametersReachOnlyDrawAndAddIndex: a step that another parameter changes, and the two instructions next. -/
theorem test_witness_parameters :
    stepWith { Config.params with iOverflow := .wrap16 } (next 0xF01E { regs [(0, 1#8)] with i := 0xFFFF#16 }) ≠
      step (next 0xF01E { regs [(0, 1#8)] with i := 0xFFFF#16 }) ∧
    (next 0xF01E State.reset).Running ∧ (next 0xF01E State.reset).NextIs (.addIVx 0) ∧
    (next 0xD010 State.reset).Running ∧ (next 0xD010 State.reset).NextIs (.drw 0 1 0#4) :=
  ⟨fun h => absurd (congrArg (fun r => (nextOf r).map (·.run)) h) (by decide), rfl, ⟨by decide, rfl⟩, rfl,
    ⟨by decide, rfl⟩⟩

/-- StepKeepsTheInvariant, HostMovesKeepTheInvariant: a step and a reset under other parameters. -/
theorem test_witness_configured_invariant :
    State.reset.Inv ∧ (∃ t, stepWith { Config.params with drawClearsVF := false } State.reset = .next t) ∧
    ∃ t, hostResetWith { Config.params with drawClearsVF := false } [] down = .ok t :=
  ⟨test_witness_invariant.1, ⟨_, rfl⟩, ⟨_, rfl⟩⟩

/-- AtRestOnlyTheTimersChange: a jump to itself. -/
theorem test_witness_at_rest : (next 0x1200 State.reset).AtRest := ⟨rfl, 0x200#12, ⟨by decide, rfl⟩, by decide⟩

end Sys2Proof.Tests
end

section
/-! PROOFS. DIRTY and the plane: which steps write them, and which moves of the host clear DIRTY (10_state.md R25). -/

namespace Sys2Proof.Machine

/-! ### Answers that leave the display -/

/-- The answer is a next state with the plane and `DIRTY` of `s`. -/
def KeepsDisplay (s : State) (r : Result) : Prop := ∃ t, r = .next t ∧ t.fb = s.fb ∧ t.dirty = s.dirty

theorem KeepsDisplay.finish {s t : State} (target : Word) (hfb : t.fb = s.fb) (hd : t.dirty = s.dirty) :
    KeepsDisplay s (finish t target) := ⟨_, rfl, hfb, hd⟩

theorem KeepsDisplay.finishSkip (s : State) (cond : Bool) : KeepsDisplay s (finishSkip s cond) := ⟨_, rfl, rfl, rfl⟩

theorem KeepsDisplay.raise (s : State) (f : CoreFault) : KeepsDisplay s (raise s f) := ⟨_, rfl, rfl, rfl⟩

theorem KeepsDisplay.withBytesAtI {s : State} {body : Result} (count : Nat) (h : KeepsDisplay s body) :
    KeepsDisplay s (withBytesAtI s count body) := by
  rcases withBytesAtI_cases s count body with ⟨-, -, e⟩ | ⟨-, e⟩ <;> rw [e]
  · exact .raise s _
  · exact h

theorem KeepsDisplay.withKey {s : State} {body : KeyIx → Result} (b : Byte) (h : ∀ k, KeepsDisplay s (body k)) :
    KeepsDisplay s (withKey s b body) := by
  rcases withKey_cases s b body with ⟨-, e⟩ | ⟨_, e⟩ <;> rw [e]
  · exact .raise s _
  · exact h _

/-! ### Instructions -/

/-- Every instruction but 00E0 and DXYN leaves the plane and `DIRTY`. -/
theorem exec_keepsDisplay {i : Instr} (s : State) (hcls : i ≠ .cls) (hdrw : ∀ x y n, i ≠ .drw x y n) :
    KeepsDisplay s (exec i s) := by
  cases i with
  | cls => exact absurd rfl hcls
  | drw x y n => exact absurd rfl (hdrw x y n)
  | ret =>
    simp only [exec, execRet]
    rcases s.pop_cases with ⟨-, e⟩ | ⟨n, hn, -, e⟩ <;> rw [e]
    · exact .raise s _
    · exact .finish _ rfl rfl
  | call nnn =>
    simp only [exec, execCall]
    rcases s.push_cases s.pc with ⟨-, e⟩ | ⟨h, e⟩ <;> rw [e]
    · exact .raise s _
    · exact .finish _ rfl rfl
  | ldVxK x =>
    simp only [exec, execLdVxK]
    rcases drawKey_cases s s.pressed with ⟨-, e⟩ | ⟨k, -, e⟩ <;> rw [e]
    · exact ⟨_, rfl, rfl, rfl⟩
    · exact .finish _ rfl rfl
  | addIVx x =>
    rcases addIWith_cases Config.params x s with ⟨-, -, e⟩ | ⟨v, e⟩ <;> exact ⟨_, e, rfl, rfl⟩
  | skp x => exact .withKey (s.getV x) fun k => .finishSkip s (s.key k)
  | sknp x => exact .withKey (s.getV x) fun k => .finishSkip s (!s.key k)
  | ldBVx x => exact .withBytesAtI _ (.finish _ rfl rfl)
  | ldMemVx x => exact .withBytesAtI _ (.finish _ rfl rfl)
  | ldVxMem x =>
    obtain ⟨w, e⟩ := loadRegs_rest s x
    exact .withBytesAtI _ (.finish _ (by rw [e]) (by rw [e]))
  | _ => exact ⟨_, rfl, rfl, rfl⟩

/-- DXYN raises a fault or leaves `DIRTY` true, also when no pixel changes. -/
theorem exec_drw_dirty {s t : State} {x y : RegIx} {n : Nibble} (h : exec (.drw x y n) s = .next t) :
    t.dirty = true ∨ ∃ f, t = s.recordFault f := by
  have h : drawWith Config.params x y n s = .next t := h
  rcases drawWith_cases Config.params x y n s with e | ⟨v, fb, e⟩ <;> rw [e] at h <;> cases h
  · exact .inr ⟨_, rfl⟩
  · exact .inl rfl

/-! ### Steps -/

/-- The instruction at `PC` is 00E0 or DXYN, the two that write the display. -/
def State.NextDraws (s : State) : Prop := s.NextIs .cls ∨ ∃ x y n, s.NextIs (.drw x y n)

/-- A step that does not run 00E0 or DXYN leaves the plane and `DIRTY`. -/
theorem step_keeps_display {s t : State} (h : step s = .next t) (hn : ¬ s.NextDraws) :
    t.fb = s.fb ∧ t.dirty = s.dirty := by
  obtain ⟨-, ⟨-, rfl⟩ | ⟨i, u, hi, hu, rfl⟩ | ⟨w, -, -, rfl⟩⟩ := step_cases h
  · exact ⟨rfl, rfl⟩
  · have hcls : i ≠ .cls := by rintro rfl; exact hn (.inl hi)
    have hdrw : ∀ x y n, i ≠ .drw x y n := by rintro x y n rfl; exact hn (.inr ⟨x, y, n, hi⟩)
    obtain ⟨u', hu', hfb, hd⟩ := exec_keepsDisplay s hcls hdrw
    obtain rfl : u = u' := by simpa [hu] using hu'
    exact ⟨by simpa using hfb, by simpa using hd⟩
  · exact ⟨by simp [unknownOpcode], by simp [unknownOpcode]⟩

/-- A step that runs 00E0 or DXYN leaves `DIRTY` true or only records a fault. -/
theorem step_draws_dirty {s t : State} (h : step s = .next t) (hn : s.NextDraws) :
    t.dirty = true ∨ ∃ f, t = s.recordFault f := by
  have hr : s.Running := (step_cases h).1
  rcases hn with hi | ⟨x, y, n, hi⟩ <;> rw [step_exec hr hi] at h
  · cases h
    exact .inl (afterInstruction_dirty _)
  · obtain ⟨u, hu⟩ := exec_next (.drw x y n) s
    rw [hu, afterExec_next] at h
    cases h
    rcases exec_drw_dirty hu with hd | ⟨f, rfl⟩
    · exact .inl (by simpa using hd)
    · exact .inr ⟨f, afterInstruction_faulted rfl⟩

/-- No step clears `DIRTY` (R25). -/
theorem step_dirty_of_dirty {s t : State} (h : step s = .next t) (hd : s.dirty = true) : t.dirty = true := by
  by_cases hn : s.NextDraws
  · rcases step_draws_dirty h hn with ht | ⟨f, rfl⟩
    · exact ht
    · exact hd
  · rw [(step_keeps_display h hn).2, hd]

/-- A step that changes `DIRTY` or a pixel runs 00E0 or DXYN. -/
theorem nextDraws_of_display_changed {s t : State} (h : step s = .next t)
    (hc : t.dirty ≠ s.dirty ∨ ∃ p, t.pixel p ≠ s.pixel p) : s.NextDraws := by
  by_contra hn
  obtain ⟨hfb, hd⟩ := step_keeps_display h hn
  rcases hc with hc | ⟨p, hp⟩
  · exact hc hd
  · exact hp (by simp only [State.pixel, hfb])

/-- 00E0 and DXYN set `DIRTY` in every step of theirs that advances. -/
theorem dirty_of_draw_advanced {s t : State} (h : step s = .next t) (hn : s.NextDraws)
    (ha : ∃ es, t.lastStep = some (.advanced es)) : t.dirty = true := by
  rcases step_draws_dirty h hn with ht | ⟨f, rfl⟩
  · exact ht
  · obtain ⟨es, ha⟩ := ha
    simp [State.recordFault] at ha

/-! ### Host moves -/

/-- The host clears `DIRTY` by ConsumeFrame and Reset only (R25, R102). -/
theorem hostAct_clears_dirty {a : HostAction} {s : State} (hs : s.dirty = true) (ht : (hostAct a s).dirty = false) :
    a = .consumeFrame ∨ ∃ rom, a = .reset rom := by
  cases a with
  | writeKeys keys => exact absurd (hs.symm.trans ht) (by decide)
  | readFrame => exact absurd (hs.symm.trans ht) (by decide)
  | consumeFrame => exact .inl rfl
  | reset rom => exact .inr ⟨rom, rfl⟩

/-- Settles O39, from what a step does to the display when it draws and when it does not, and the host's moves. -/
theorem dirtyIsSetByDrawingAndClearedByTheHost : Obligations.DirtyIsSetByDrawingAndClearedByTheHost := by
  unfold Obligations.DirtyIsSetByDrawingAndClearedByTheHost
  exact ⟨fun _ _ h => ⟨step_dirty_of_dirty h, nextDraws_of_display_changed h, dirty_of_draw_advanced h⟩,
    fun _ _ => hostAct_clears_dirty, fun _ => rfl⟩

end Sys2Proof.Machine
end

section
/-! PROOFS. What a reset leaves in memory and in the registers, under any FONT (20_memory.md R31; 70_reset_and_hazards.md R106). -/

namespace Sys2Proof.Machine

/-! ### Memory after construction, load and reset -/

/-- With nothing listed, every byte above the font reads as 0 (R31). -/
theorem Memory.unlisted_above_font {a : Nat} (h : ¬ a < Config.fontSize) : Memory.unlisted a = 0#8 := if_neg h

/-- Construction leaves `FONT` and zeros (R31). -/
theorem constructed_read_fontOrZero (p : Config.Params) (a : Nat) :
    (State.constructed p).mem.read a = if a < 80 then p.font.toList.getD a 0#8 else 0#8 := by
  rw [constructed_read]
  split
  · rfl
  · exact Memory.unlisted_above_font ‹_›

/-- A ROM written over a constructed memory: `FONT`, the ROM from 0x200, zeros (R31). -/
theorem constructed_read_withRom (p : Config.Params) (rom : List Byte) (a : Nat) :
    ((State.constructed p).mem.writeList Config.programBase rom).read a =
      if a < 80 then p.font.toList.getD a 0#8
      else if 0x200 ≤ a ∧ a < 0x200 + rom.length then rom.getD (a - 0x200) 0#8 else 0#8 := by
  by_cases hrom : 0x200 ≤ a ∧ a < 0x200 + rom.length
  · obtain ⟨k, rfl⟩ := Nat.exists_eq_add_of_le hrom.1
    have hk : k < rom.length := by omega
    rw [Memory.read_writeList_inside _ _ _ _ hk, if_neg (by omega), if_pos hrom, Nat.add_sub_cancel_left,
      List.getD_eq_getElem _ _ hk]
  · have hout : a < Config.programBase ∨ Config.programBase + rom.length ≤ a := by
      rw [Config.programBase_eq]; omega
    rw [Memory.read_writeList_outside _ _ _ _ hout, constructed_read_fontOrZero, if_neg hrom]

/-- What a load answers: the ROM's bytes written from 0x200, or a refusal with the length (R108, D15). -/
theorem hostLoad_cases (rom : List Byte) (s : State) :
    (rom.length ≤ 3584 ∧ hostLoad rom s = .ok { s with mem := s.mem.writeList Config.programBase rom }) ∨
    (3584 < rom.length ∧ hostLoad rom s = .error (.tooLong rom.length)) := by
  unfold hostLoad
  by_cases h : rom.length ≤ 3584
  · exact .inl ⟨h, if_pos (decide_eq_true h)⟩
  · exact .inr ⟨by omega, if_neg (by simpa [romWellFormed] using h)⟩

/-- A load of a ROM that fits changes memory from 0x200 and nothing else (R108). -/
theorem hostLoad_of_fits {rom : List Byte} (h : rom.length ≤ 3584) (s : State) :
    hostLoad rom s = .ok { s with mem := s.mem.writeList Config.programBase rom } := by
  rcases hostLoad_cases rom s with ⟨-, e⟩ | ⟨hlong, -⟩
  · exact e
  · omega

/-! ### Registers after construction -/

@[simp] theorem constructed_getV (p : Config.Params) (r : RegIx) : (State.constructed p).getV r = 0#8 := by
  simp [State.getV, State.constructed, State.reset, Vector.get_eq_getElem]

@[simp] theorem constructed_stack_get (p : Config.Params) (k : Fin 16) :
    (State.constructed p).stack.get k = 0#16 := by
  simp [State.constructed, State.reset, Vector.get_eq_getElem]

/-! ### Reset -/

/-- A reset refuses a ROM too long, with its length (R106, D15). -/
theorem hostResetWith_of_tooLong (p : Config.Params) {rom : List Byte} (h : 3584 < rom.length) (s : State) :
    hostResetWith p rom s = .error (.tooLong rom.length) := by
  rcases hostResetWith_cases p rom s with ⟨hfits, -⟩ | ⟨-, e⟩
  · omega
  · exact e

/-- A reset with a ROM that fits is a construction with the ROM written in; the count of draws goes on (R106). -/
theorem hostResetWith_of_fits (p : Config.Params) {rom : List Byte} (h : rom.length ≤ 3584) (s : State) :
    hostResetWith p rom s = .ok { State.constructed p with
      mem := (State.constructed p).mem.writeList Config.programBase rom, draws := s.draws } := by
  rcases hostResetWith_cases p rom s with ⟨-, e⟩ | ⟨hlong, -⟩
  · exact e
  · omega

/-- The host's reset with a ROM too long leaves the machine as it was (D15). -/
theorem hostAct_reset_of_tooLong {rom : List Byte} (h : 3584 < rom.length) (s : State) :
    hostAct (.reset rom) s = s := by
  have e : hostReset rom s = .error (.tooLong rom.length) := hostResetWith_of_tooLong Config.params h s
  simp only [hostAct, e]

/-- Settles O49, from what a reset answers for a ROM that fits and for one too long, and what the rebuilt memory reads. -/
theorem resetRebuildsMemoryAndRegisters : Obligations.ResetRebuildsMemoryAndRegisters := by
  unfold Obligations.ResetRebuildsMemoryAndRegisters
  refine ⟨fun p rom s => ⟨fun hfits => ?_, fun hlong => hostResetWith_of_tooLong p hlong s⟩,
    fun rom s => ⟨rfl, fun hlong => hostAct_reset_of_tooLong hlong s⟩⟩
  exact ⟨_, hostResetWith_of_fits p hfits s, fun a _ => constructed_read_withRom p rom a, constructed_getV p,
    rfl, rfl, rfl, constructed_stack_get p, rfl, rfl, rfl, _, hostLoad_of_fits hfits _, rfl⟩

end Sys2Proof.Machine
end

section
/-! PROOFS. The fetch and the step of an unknown opcode (30_encoding.md R44, R47). -/

namespace Sys2Proof.Machine

/-! ### The fetch -/

/-- Two bytes read high first (R35). -/
theorem joinBytes_toNat (hi lo : Byte) : (joinBytes hi lo).toNat = 256 * hi.toNat + lo.toNat := by
  rw [joinBytes, BitVec.toNat_append, ← Nat.shiftLeft_add_eq_or_of_lt lo.isLt, Nat.shiftLeft_eq]
  omega

/-- A fetch with both bytes in memory answers the word they join to (R44). -/
theorem fetch_of_inside {s : State} (hp : s.pc.toNat + 1 ≤ 0xFFF) :
    fetch s = .ok (joinBytes (s.mem.read s.pc.toNat) (s.mem.read (s.pc.toNat + 1))) := by
  rcases fetch_cases s with ⟨hout, -⟩ | ⟨-, e⟩
  · omega
  · exact e

/-- A fetch that runs over the end of memory faults with `PC` (R44). -/
theorem fetch_of_outside {s : State} (hp : 0xFFF < s.pc.toNat + 1) : fetch s = .error (.fetchFault s.pc) := by
  rcases fetch_cases s with ⟨-, e⟩ | ⟨hin, -⟩
  · exact e
  · omega

/-- Settles O27, from what the fetch answers on either side of the end of memory. -/
theorem fetchIsBigEndianOrFaults : Obligations.FetchIsBigEndianOrFaults := by
  unfold Obligations.FetchIsBigEndianOrFaults
  exact fun _ => ⟨fun hin => ⟨_, fetch_of_inside hin, joinBytes_toNat _ _⟩,
    fun hout => ⟨fetch_of_outside hout, fun hr => step_fetchFault hr hout⟩⟩

/-! ### The step of an unknown opcode -/

/-- A word that decodes to no instruction is rejected by its own name (R47). -/
theorem decode_of_no_instr {w : Word} (h : ∀ i, decode w ≠ .ok i) : decode w = .error (.unknownOpcode w) := by
  rcases decode_cases w with ⟨i, hi⟩ | e
  · exact absurd hi (h i)
  · exact e

/-- A timer counted down, as a number: one less, floor 0 (R97). -/
theorem countDown_toNat (b : Byte) : (if b = 0#8 then 0#8 else b - 1#8).toNat = b.toNat - 1 := by
  split <;> bv_omega

theorem tick_dt_toNat (s : State) : (tick s).dt.toNat = s.dt.toNat - 1 := by
  rw [tick_dt, countDown_toNat]

theorem tick_st_toNat (s : State) : (tick s).st.toNat = s.st.toNat - 1 := by
  rw [tick_st, countDown_toNat]

/-- The tick writes the two timers and the report only (R97). -/
theorem tick_untouched (s : State) : Untouched { dt := true, st := true } s (tick s) := by
  simp [Untouched]

/-- Before its tick an unknown opcode writes `PC` and the report, which no frame counts (R47): the frame from `s` is
the tick's. -/
theorem tick_unknownOpcode_untouched (s : State) (op : Word) :
    Untouched { dt := true, st := true } s (tick (unknownOpcode s op)) := tick_untouched (unknownOpcode s op)

/-- The events of an unknown opcode's step: its own first, then the tick's beep if there is one (R47, R100). -/
theorem tick_unknownOpcode_lastStep (s : State) (op : Word) :
    (tick (unknownOpcode s op)).lastStep =
      some (.advanced (.unknownOpcode op :: if s.st = 1#8 then [.beep] else [])) := by
  have h : (tick (unknownOpcode s op)).lastStep =
      some (.advanced (if s.st = 1#8 then [.unknownOpcode op] ++ [.beep] else [.unknownOpcode op])) :=
    tick_lastStep rfl
  rw [h]
  split <;> rfl

/-- Settles O30: the step is the tick of the reported word, and the tick's own laws give each part. -/
theorem unknownOpcodeIsReportedAndSkipped : Obligations.UnknownOpcodeIsReportedAndSkipped := by
  unfold Obligations.UnknownOpcodeIsReportedAndSkipped
  exact fun s w hr hf hd => ⟨_, step_unknown hr hf (decode_of_no_instr hd), tick_pc _,
    tick_unknownOpcode_lastStep s w, tick_dt_toNat _, tick_st_toNat _, tick_unknownOpcode_untouched s w⟩

end Sys2Proof.Machine
end

section
/-! PROOFS. Control flow: jumps, call, return and the compare skips (41_flow.md R52 to R59). -/

namespace Sys2Proof

/-! ### The words of the flow instructions -/

theorem decode_jp (nnn : Addr12) : decode (encNNN 0x1#4 nnn) = .ok (.jp nnn) := by simp [decode]

theorem decode_call (nnn : Addr12) : decode (encNNN 0x2#4 nnn) = .ok (.call nnn) := by simp [decode]

theorem decode_jpV0 (nnn : Addr12) : decode (encNNN 0xB#4 nnn) = .ok (.jpV0 nnn) := by simp [decode]

theorem decode_seImm (x : RegIx) (nn : Byte) : decode (encXNN 0x3#4 x nn) = .ok (.seImm x nn) := by simp [decode]

theorem decode_sneImm (x : RegIx) (nn : Byte) : decode (encXNN 0x4#4 x nn) = .ok (.sneImm x nn) := by simp [decode]

/-- Family 5 is SE's, and `decodeXY0` alone answers for it. -/
theorem decode_of_family_five {w : Word} (h : family w = 0x5#4) : decode w = decodeXY0 w .seReg := by
  simp [decode, h]

/-- Family 9 is SNE's, and `decodeXY0` alone answers for it. -/
theorem decode_of_family_nine {w : Word} (h : family w = 0x9#4) : decode w = decodeXY0 w .sneReg := by
  simp [decode, h]

@[simp] theorem decodeXY0_encXYN_zero (f : Nibble) (x y : RegIx) (i : RegIx → RegIx → Instr) :
    decodeXY0 (encXYN f x (nibbleOf y) 0x0#4) i = .ok (i x y) := by simp [decodeXY0]

theorem decodeXY0_of_nonzero {w : Word} (i : RegIx → RegIx → Instr) (h : nibbleN w ≠ 0#4) :
    decodeXY0 w i = .error (.unknownOpcode w) := if_neg h

theorem decode_seReg (x y : RegIx) : decode (encXYN 0x5#4 x (nibbleOf y) 0#4) = .ok (.seReg x y) := by
  rw [decode_of_family_five (family_encXYN ..), decodeXY0_encXYN_zero]

theorem decode_sneReg (x y : RegIx) : decode (encXYN 0x9#4 x (nibbleOf y) 0#4) = .ok (.sneReg x y) := by
  rw [decode_of_family_nine (family_encXYN ..), decodeXY0_encXYN_zero]

/-- A word of families 5 or 9 whose low nibble is not 0 is unknown (R57, R58). -/
theorem decode_skipReg_unknown {w : Word} (hf : family w = 0x5#4 ∨ family w = 0x9#4) (hn : nibbleN w ≠ 0#4) :
    decode w = .error (.unknownOpcode w) := by
  rcases hf with h | h
  · rw [decode_of_family_five h, decodeXY0_of_nonzero _ hn]
  · rw [decode_of_family_nine h, decodeXY0_of_nonzero _ hn]

end Sys2Proof

namespace Sys2Proof.Machine

/-! ### What a completed instruction leaves -/

/-- The address field as a 16-bit target (R43). -/
theorem zextAddr_eq_ofNat (nnn : Addr12) : zextAddr nnn = BitVec.ofNat 16 nnn.toNat :=
  (BitVec.ofNat_toNat 16 nnn).symm

/-- An instruction that only ends writes nothing but `PC` and the report (R49). -/
theorem finish_advances (s : State) (target : Word) :
    ∃ t, finish s target = .next t ∧ AdvancedTo target t ∧ Untouched {} s t :=
  ⟨_, finish_eq s target, ⟨rfl, rfl⟩, by simp [Untouched, State.getV, State.pixel]⟩

/-- A skip goes on at `PC + 4` when its condition holds and at `PC + 2` otherwise, writing nothing else (R49). -/
theorem finishSkip_advances (s : State) (c : Prop) [Decidable c] :
    ∃ t, finishSkip s (decide c) = .next t ∧ AdvancedTo (if c then s.pc + 4#16 else s.pc + 2#16) t ∧
      Untouched {} s t := by
  simpa only [finishSkip, decide_eq_true_eq] using finish_advances s (if c then s.pc + 4#16 else s.pc + 2#16)

/-- A change of `SP`, `S`, `PC` and the report is within the frame of the stack instructions (R19). -/
theorem untouched_of_stackWrite (s : State) (sp : Fin 17) (stack : Vector Word 16) (pc : Word)
    (report : Option StepResult) :
    Untouched { stack := true } s { s with sp := sp, stack := stack, pc := pc, lastStep := report } := by
  simp [Untouched, State.getV, State.pixel]

/-! ### Jumps -/

/-- Settles O5: the jump only ends, at its address field. -/
theorem jumpSetsPc : Obligations.JumpSetsPc := by
  unfold Obligations.JumpSetsPc
  refine fun nnn => ⟨decode_jp nnn, fun s => ?_⟩
  rw [← zextAddr_eq_ofNat]
  exact finish_advances s (zextAddr nnn)

/-- `V0 + nnn` is at most 0xFF + 0xFFF. -/
theorem indexedTarget_le (b : Byte) (nnn : Addr12) : b.toNat + nnn.toNat ≤ 0x10FE := by
  have hb := b.isLt
  have hn := nnn.isLt
  omega

/-- The 16-bit target of BNNN is the exact sum: it does not wrap (R59). -/
theorem indexedTarget_toNat (b : Byte) (nnn : Addr12) :
    (BitVec.ofNat 16 (b.toNat + nnn.toNat)).toNat = b.toNat + nnn.toNat := by
  have h := indexedTarget_le b nnn
  rw [BitVec.toNat_ofNat, Nat.mod_eq_of_lt (by omega)]

/-- Settles O9: the indexed jump only ends, at a sum that fits in 16 bits. -/
theorem indexedJumpAddsVZero : Obligations.IndexedJumpAddsVZero := by
  unfold Obligations.IndexedJumpAddsVZero
  refine fun nnn => ⟨decode_jpV0 nnn, fun s => ?_⟩
  obtain ⟨t, ht, ⟨hpc, hreport⟩, hframe⟩ :=
    finish_advances s (BitVec.ofNat 16 ((s.getV 0).toNat + nnn.toNat))
  have hsum : t.pc.toNat = (s.getV 0).toNat + nnn.toNat := by rw [hpc, indexedTarget_toNat]
  exact ⟨t, ht, hsum, hsum ▸ indexedTarget_le _ nnn, hreport, hframe⟩

/-! ### Call -/

/-- A push with a free slot (R20). -/
theorem State.push_of_room {s : State} (r : Word) (h : s.sp.val < 16) :
    s.push r = some { s with stack := s.stack.set s.sp.val r h, sp := ⟨s.sp.val + 1, Nat.succ_lt_succ h⟩ } :=
  dif_pos h

/-- A push on a full stack (R20). -/
theorem State.push_of_full {s : State} (r : Word) (h : s.sp.val = 16) : s.push r = none :=
  dif_neg (by omega)

/-- The slots after a push: the one at `SP` is new. -/
theorem stack_set_get (stack : Vector Word 16) {n : Nat} (h : n < 16) (r : Word) (k : Fin 16) :
    (stack.set n r h).get k = if k.val = n then r else stack.get k := by
  simp only [Vector.get_eq_getElem, Vector.getElem_set, eq_comm]

/-- 2NNN with a free slot (R54): `PC` itself into the slot at `SP`, then the jump. -/
theorem exec_call_of_room (nnn : Addr12) {s : State} (h : s.sp.val < 16) :
    exec (.call nnn) s = .next { s with
      stack := s.stack.set s.sp.val s.pc h, sp := ⟨s.sp.val + 1, Nat.succ_lt_succ h⟩,
      pc := zextAddr nnn, lastStep := some (.advanced []) } := by
  simp only [exec, execCall, State.push_of_room s.pc h, finish_eq]

/-- 2NNN on a full stack raises StackOverflow(PC) (R54, D3). -/
theorem exec_call_of_full (nnn : Addr12) {s : State} (h : s.sp.val = 16) :
    exec (.call nnn) s = .next (s.recordFault (.stackOverflow s.pc)) := by
  simp only [exec, execCall, State.push_of_full s.pc h, raise_eq]

/-- Settles O6, from what the call answers with a free slot and on a full stack. -/
theorem callPushesItsOwnAddress : Obligations.CallPushesItsOwnAddress := by
  unfold Obligations.CallPushesItsOwnAddress
  refine fun nnn => ⟨decode_call nnn, fun s hroom => ?_, fun s hfull => exec_call_of_full nnn hfull⟩
  exact ⟨_, exec_call_of_room nnn hroom, ⟨zextAddr_eq_ofNat nnn, rfl⟩, rfl, stack_set_get s.stack hroom s.pc,
    untouched_of_stackWrite ..⟩

/-! ### Return -/

/-- A pop with `k + 1` entries gives slot `k` and leaves every slot (R21). -/
theorem State.pop_of_entry {s : State} {k : Fin 16} (h : s.sp.val = k.val + 1) :
    s.pop = some (s.stack.get k, { s with sp := k.castSucc }) := by
  rcases s.pop_cases with ⟨h0, -⟩ | ⟨n, hn, hsp, e⟩
  · simp [h0] at h
  · obtain rfl : k = ⟨n, hn⟩ := Fin.ext (Nat.add_right_cancel (h.symm.trans hsp))
    exact e

/-- A pop on an empty stack (R21). -/
theorem State.pop_of_empty {s : State} (h : s.sp.val = 0) : s.pop = none := by
  rcases s.pop_cases with ⟨-, e⟩ | ⟨n, -, hsp, -⟩
  · exact e
  · omega

/-- 00EE with `k + 1` entries (R52): to two past the address in slot `k`, which keeps its value. -/
theorem exec_ret_of_entry {s : State} {k : Fin 16} (h : s.sp.val = k.val + 1) :
    exec .ret s = .next { s with
      sp := k.castSucc, pc := s.stack.get k + 2#16, lastStep := some (.advanced []) } := by
  simp only [exec, execRet, State.pop_of_entry h, finish_eq]

/-- 00EE on an empty stack raises StackUnderflow(PC) (R52, D4). -/
theorem exec_ret_of_empty {s : State} (h : s.sp.val = 0) :
    exec .ret s = .next (s.recordFault (.stackUnderflow s.pc)) := by
  simp only [exec, execRet, State.pop_of_empty h, raise_eq]

/-- Settles O7, from what the return answers with an entry and on an empty stack. -/
theorem returnResumesAfterTheCall : Obligations.ReturnResumesAfterTheCall := by
  unfold Obligations.ReturnResumesAfterTheCall
  refine ⟨rfl, fun s k hentry => ?_, fun s hempty => exec_ret_of_empty hempty⟩
  exact ⟨_, exec_ret_of_entry hentry, ⟨rfl, rfl⟩, rfl, rfl, untouched_of_stackWrite ..⟩

/-! ### Compare skips -/

/-- Settles O8: each of the four is a skip on its own condition. -/
theorem compareSkipsAdvanceByFourOrTwo : Obligations.CompareSkipsAdvanceByFourOrTwo := by
  unfold Obligations.CompareSkipsAdvanceByFourOrTwo
  exact ⟨fun x nn => ⟨decode_seImm x nn, decode_sneImm x nn⟩, fun x y => ⟨decode_seReg x y, decode_sneReg x y⟩,
    fun w => decode_skipReg_unknown,
    fun x nn s => ⟨finishSkip_advances s (s.getV x = nn), finishSkip_advances s (s.getV x ≠ nn)⟩,
    fun x y s => ⟨finishSkip_advances s (s.getV x = s.getV y), finishSkip_advances s (s.getV x ≠ s.getV y)⟩⟩

end Sys2Proof.Machine
end

section
/-! PROOFS. Register loads, arithmetic and logic (42_register_alu.md R61 to R72). -/

namespace Sys2Proof

/-! ### The words of the register instructions -/

theorem decode_ldImm (x : RegIx) (nn : Byte) : decode (encXNN 0x6#4 x nn) = .ok (.ldImm x nn) := by simp [decode]

theorem decode_addImm (x : RegIx) (nn : Byte) : decode (encXNN 0x7#4 x nn) = .ok (.addImm x nn) := by simp [decode]

theorem decode_rnd (x : RegIx) (nn : Byte) : decode (encXNN 0xC#4 x nn) = .ok (.rnd x nn) := by simp [decode]

/-- Family 8 is the register-to-register operations', and `decodeEight` alone answers for it. -/
theorem decode_of_family_eight {w : Word} (h : family w = 0x8#4) : decode w = decodeEight w := by
  simp [decode, h]

@[simp] theorem decode_encXYN_eight (x : RegIx) (y n : Nibble) :
    decode (encXYN 0x8#4 x y n) = decodeEight (encXYN 0x8#4 x y n) := decode_of_family_eight (family_encXYN ..)

theorem decode_ldReg (x y : RegIx) : decode (encXYN 0x8#4 x (nibbleOf y) 0x0#4) = .ok (.ldReg x y) := by
  simp [decodeEight]

theorem decode_orReg (x y : RegIx) : decode (encXYN 0x8#4 x (nibbleOf y) 0x1#4) = .ok (.orReg x y) := by
  simp [decodeEight]

theorem decode_andReg (x y : RegIx) : decode (encXYN 0x8#4 x (nibbleOf y) 0x2#4) = .ok (.andReg x y) := by
  simp [decodeEight]

theorem decode_xorReg (x y : RegIx) : decode (encXYN 0x8#4 x (nibbleOf y) 0x3#4) = .ok (.xorReg x y) := by
  simp [decodeEight]

theorem decode_addReg (x y : RegIx) : decode (encXYN 0x8#4 x (nibbleOf y) 0x4#4) = .ok (.addReg x y) := by
  simp [decodeEight]

theorem decode_sub (x y : RegIx) : decode (encXYN 0x8#4 x (nibbleOf y) 0x5#4) = .ok (.sub x y) := by
  simp [decodeEight]

/-- Any Y nibble: 8XY6 ignores it (R69). -/
theorem decode_shr (x : RegIx) (y : Nibble) : decode (encXYN 0x8#4 x y 0x6#4) = .ok (.shr x) := by
  simp [decodeEight]

theorem decode_subn (x y : RegIx) : decode (encXYN 0x8#4 x (nibbleOf y) 0x7#4) = .ok (.subn x y) := by
  simp [decodeEight]

/-- Any Y nibble: 8XYE ignores it (R71). -/
theorem decode_shl (x : RegIx) (y : Nibble) : decode (encXYN 0x8#4 x y 0xE#4) = .ok (.shl x) := by
  simp [decodeEight]

end Sys2Proof

namespace Sys2Proof.Machine

/-! ### The flags and results as numbers -/

theorem flagByte_decide_toNat (c : Prop) [Decidable c] : (flagByte (decide c)).toNat = if c then 1 else 0 := by
  by_cases h : c <;> simp [flagByte, h]

theorem carryFlag_toNat (a b : Byte) : (carryFlag a b).toNat = if a.toNat + b.toNat > 255 then 1 else 0 :=
  flagByte_decide_toNat _

theorem greaterFlag_toNat (a b : Byte) : (greaterFlag a b).toNat = if a.toNat > b.toNat then 1 else 0 :=
  flagByte_decide_toNat _

theorem lsbFlag_toNat (a : Byte) : (lsbFlag a).toNat = a.toNat % 2 := by
  rw [lsbFlag, BitVec.toNat_and, BitVec.toNat_ofNat, ← Nat.and_one_is_mod]

theorem msbFlag_toNat (a : Byte) : (msbFlag a).toNat = a.toNat / 128 := by
  rw [msbFlag, BitVec.toNat_ushiftRight, Nat.shiftRight_eq_div_pow]

/-- A difference of bytes with its borrow added back, so that it is exact in `Nat` (R68, R70). -/
theorem byte_sub_toNat (a b : Byte) : (a - b).toNat = (a.toNat + 256 - b.toNat) % 256 := by bv_omega

theorem byte_half_toNat (a : Byte) : (a >>> 1).toNat = a.toNat / 2 := by
  rw [BitVec.toNat_ushiftRight, Nat.shiftRight_eq_div_pow]

theorem byte_double_toNat (a : Byte) : (a <<< 1).toNat = a.toNat * 2 % 256 := by
  rw [BitVec.toNat_shiftLeft, Nat.shiftLeft_eq]

/-- A register's number after VF got a flag: what the second write of R60's shape reads (D13). -/
theorem getV_setV_vf_toNat (s : State) {flag : Byte} {n : Nat} (hflag : flag.toNat = n) (r : RegIx) :
    ((s.setV vf flag).getV r).toNat = if r = vf then n else (s.getV r).toNat := by
  rw [State.getV_setV, apply_ite BitVec.toNat, hflag]

/-! ### What an instruction that writes registers leaves -/

theorem Untouched.getV_eq {w : Touches} {s t : State} {r : RegIx} (h : Untouched w s t) (hr : r ∉ w.regs) :
    t.getV r = s.getV r := by
  obtain ⟨hreg, -⟩ := h
  exact hreg r hr

theorem Untouched.draws_eq {w : Touches} {s t : State} (h : Untouched w s t) (hw : w.draws = false) :
    t.draws = s.draws := by
  obtain ⟨-, -, -, -, -, -, -, hdraws, -, -⟩ := h
  exact hdraws hw

/-- A frame from the state after a register write is one from the state before it, with that register added. -/
theorem Untouched.of_setV {w : Touches} {s t : State} {x : RegIx} {b : Byte} (h : Untouched w (s.setV x b) t) :
    Untouched { w with regs := w.regs ++ [x] } s t := by
  obtain ⟨hreg, hrest⟩ := h
  refine ⟨fun r hr => ?_, hrest⟩
  obtain ⟨hw, hx⟩ : r ∉ w.regs ∧ r ≠ x := by simpa using hr
  rw [hreg r hw, State.getV_setV_other s b hx]

/-- A frame from the state after a free draw is one from the state before it, with the count of draws added. -/
theorem Untouched.of_draws {w : Touches} {s t : State} {n : Nat} (h : Untouched w { s with draws := n } t) :
    Untouched { w with draws := true } s t := by
  obtain ⟨hreg, hmem, hi, hstack, hdt, hst, hdisplay, -, hkeys, hrun⟩ := h
  exact ⟨hreg, hmem, hi, hstack, hdt, hst, hdisplay, nofun, hkeys, hrun⟩

/-- An instruction that writes one register and goes on: the register reads the byte, and nothing else changes (R49). -/
theorem finishNext_setV_advances (s : State) (x : RegIx) (b : Byte) :
    ∃ t, finishNext (s.setV x b) = .next t ∧ AdvancedTo (s.pc + 2#16) t ∧ t.getV x = b ∧
      Untouched { regs := [x] } s t := by
  obtain ⟨t, ht, hpc, hframe⟩ := finish_advances (s.setV x b) (s.pc + 2#16)
  exact ⟨t, ht, hpc, (hframe.getV_eq List.not_mem_nil).trans (State.getV_setV_same s x b), hframe.of_setV⟩

/-- An instruction of R60's shape: VF is the flag unless it is the destination, and the destination is the result of
the registers that the flag's write left (D13). -/
theorem flagThenResult_advances (s : State) (x : RegIx) {flag : Byte} (result : State → Byte) {n m : Nat}
    (hflag : flag.toNat = n) (hresult : (result (s.setV vf flag)).toNat = m) :
    ∃ t, flagThenResult s flag x result = .next t ∧ AdvancedTo (s.pc + 2#16) t ∧ (t.getV x).toNat = m ∧
      (x ≠ vf → (t.getV vf).toNat = n) ∧ Untouched { regs := [x, vf] } s t := by
  obtain ⟨t, ht, hpc, hx, hframe⟩ := finishNext_setV_advances (s.setV vf flag) x (result (s.setV vf flag))
  refine ⟨t, ht, hpc, by rw [hx, hresult], fun hne => ?_, hframe.of_setV⟩
  rw [hframe.getV_eq (by simpa using hne.symm), State.getV_setV_same, hflag]

/-! ### Addition, subtraction and shifts with a flag -/

/-- Settles O12: 8XY4 has R60's shape, with the carry as flag and the sum as result. -/
theorem addSetsCarryThenSum : Obligations.AddSetsCarryThenSum := by
  unfold Obligations.AddSetsCarryThenSum
  refine fun x y => ⟨decode_addReg x y, fun s => ?_⟩
  have hcarry := carryFlag_toNat (s.getV x) (s.getV y)
  refine flagThenResult_advances s x (fun t => t.getV x + t.getV y) hcarry ?_
  rw [BitVec.toNat_add, getV_setV_vf_toNat s hcarry, getV_setV_vf_toNat s hcarry]

/-- R60's shape with a difference as result, whichever operand the destination is (R68, R70). -/
theorem flagThenResult_difference_advances (s : State) (x a b : RegIx) {flag : Byte} {n : Nat}
    (hflag : flag.toNat = n) :
    let after : RegIx → Nat := fun r => if r = vf then n else (s.getV r).toNat
    ∃ t, flagThenResult s flag x (fun t => t.getV a - t.getV b) = .next t ∧ AdvancedTo (s.pc + 2#16) t ∧
      (t.getV x).toNat = (after a + 256 - after b) % 256 ∧ (x ≠ vf → (t.getV vf).toNat = n) ∧
      Untouched { regs := [x, vf] } s t := by
  refine flagThenResult_advances s x (fun t => t.getV a - t.getV b) hflag ?_
  rw [byte_sub_toNat, getV_setV_vf_toNat s hflag, getV_setV_vf_toNat s hflag]

/-- Settles O13: 8XY5 and 8XY7 have R60's shape, with the strict comparison as flag and the difference as result. -/
theorem subtractSetsStrictFlagThenDifference : Obligations.SubtractSetsStrictFlagThenDifference := by
  unfold Obligations.SubtractSetsStrictFlagThenDifference
  refine fun x y => ⟨decode_sub x y, decode_subn x y, fun s => ⟨?_, ?_⟩⟩
  · exact flagThenResult_difference_advances s x x y (greaterFlag_toNat (s.getV x) (s.getV y))
  · exact flagThenResult_difference_advances s x y x (greaterFlag_toNat (s.getV y) (s.getV x))

/-- Settles O14: 8XY6 and 8XYE have R60's shape, with the bit shifted out as flag and the shifted byte as result. -/
theorem shiftsCaptureTheBitThenShift : Obligations.ShiftsCaptureTheBitThenShift := by
  unfold Obligations.ShiftsCaptureTheBitThenShift
  refine fun x => ⟨fun y => ⟨decode_shr x y, decode_shl x y⟩, fun s => ⟨?_, ?_⟩⟩
  · have hbit := lsbFlag_toNat (s.getV x)
    refine flagThenResult_advances s x (fun t => t.getV x >>> 1) hbit ?_
    rw [byte_half_toNat, getV_setV_vf_toNat s hbit]
  · have hbit := msbFlag_toNat (s.getV x)
    refine flagThenResult_advances s x (fun t => t.getV x <<< 1) hbit ?_
    rw [byte_double_toNat, getV_setV_vf_toNat s hbit]

/-! ### Loads, the immediate addition and logic -/

/-- Settles O10: each of the three writes one register and goes on. -/
theorem loadsAndImmediateAddWriteOneRegister : Obligations.LoadsAndImmediateAddWriteOneRegister := by
  unfold Obligations.LoadsAndImmediateAddWriteOneRegister
  refine ⟨fun x nn => ⟨decode_ldImm x nn, decode_addImm x nn⟩, decode_ldReg,
    fun x nn s => ⟨finishNext_setV_advances s x nn, ?_⟩, fun x y s => finishNext_setV_advances s x (s.getV y)⟩
  obtain ⟨t, ht, hpc, hx, hframe⟩ := finishNext_setV_advances s x (s.getV x + nn)
  exact ⟨t, ht, hpc, by rw [hx, BitVec.toNat_add], hframe⟩

/-- A register written with a bitwise operation on two registers: each bit is the operation on their bits. -/
theorem finishNext_bitwise_advances (s : State) (x y : RegIx) (op : Byte → Byte → Byte) (bit : Bool → Bool → Bool)
    (hop : ∀ a b i, (op a b).getLsbD i = bit (a.getLsbD i) (b.getLsbD i)) :
    ∃ t, finishNext (s.setV x (op (s.getV x) (s.getV y))) = .next t ∧ AdvancedTo (s.pc + 2#16) t ∧
      (∀ i, (t.getV x).getLsbD i = bit ((s.getV x).getLsbD i) ((s.getV y).getLsbD i)) ∧
      Untouched { regs := [x] } s t := by
  obtain ⟨t, ht, hpc, hx, hframe⟩ := finishNext_setV_advances s x (op (s.getV x) (s.getV y))
  exact ⟨t, ht, hpc, fun i => by rw [hx, hop], hframe⟩

/-- Settles O11: each of the three writes a bitwise operation into one register and goes on. -/
theorem logicWritesOneRegister : Obligations.LogicWritesOneRegister := by
  unfold Obligations.LogicWritesOneRegister
  exact fun x y => ⟨decode_orReg x y, decode_andReg x y, decode_xorReg x y, fun s =>
    ⟨finishNext_bitwise_advances s x y (· ||| ·) (· || ·) fun _ _ _ => BitVec.getLsbD_or,
      finishNext_bitwise_advances s x y (· &&& ·) (· && ·) fun _ _ _ => BitVec.getLsbD_and,
      finishNext_bitwise_advances s x y (· ^^^ ·) (· ^^ ·) fun _ _ _ => BitVec.getLsbD_xor⟩⟩

/-! ### The random byte -/

/-- A bit outside the mask is 0 (R72). -/
theorem getLsbD_and_of_mask_false {b mask : Byte} {i : Nat} (h : mask.getLsbD i = false) :
    (b &&& mask).getLsbD i = false := by
  rw [BitVec.getLsbD_and, h, Bool.and_false]

/-- Settles O15: CXNN writes one register of the state in which the draw has been counted. -/
theorem randomIsMaskedByTheImmediate : Obligations.RandomIsMaskedByTheImmediate := by
  unfold Obligations.RandomIsMaskedByTheImmediate
  refine fun x nn => ⟨decode_rnd x nn, fun s => ?_⟩
  obtain ⟨t, ht, hpc, hx, hframe⟩ := finishNext_setV_advances s.drawByte.2 x (s.drawByte.1 &&& nn)
  exact ⟨t, ht, hpc, hx, fun i hi => hx ▸ getLsbD_and_of_mask_false hi, hframe.draws_eq rfl, hframe.of_draws⟩

end Sys2Proof.Machine
end

section
/-! PROOFS. The index register and memory transfer (43_index_memory.md R73 to R79). -/

namespace Sys2Proof

/-! ### The words of the index and memory instructions -/

theorem decode_ldI (nnn : Addr12) : decode (encNNN 0xA#4 nnn) = .ok (.ldI nnn) := by simp [decode]

/-- Family F is the last one, and `decodeF` alone answers for it. -/
theorem decode_of_family_F {w : Word} (h : family w = 0xF#4) : decode w = decodeF w := by
  simp [decode, h]

@[simp] theorem decode_encXNN_F (x : RegIx) (nn : Byte) : decode (encXNN 0xF#4 x nn) = decodeF (encXNN 0xF#4 x nn) :=
  decode_of_family_F (family_encXNN ..)

theorem decode_addIVx (x : RegIx) : decode (encXNN 0xF#4 x 0x1E#8) = .ok (.addIVx x) := by simp [decodeF]

theorem decode_ldFVx (x : RegIx) : decode (encXNN 0xF#4 x 0x29#8) = .ok (.ldFVx x) := by simp [decodeF]

theorem decode_ldBVx (x : RegIx) : decode (encXNN 0xF#4 x 0x33#8) = .ok (.ldBVx x) := by simp [decodeF]

theorem decode_ldMemVx (x : RegIx) : decode (encXNN 0xF#4 x 0x55#8) = .ok (.ldMemVx x) := by simp [decodeF]

theorem decode_ldVxMem (x : RegIx) : decode (encXNN 0xF#4 x 0x65#8) = .ok (.ldVxMem x) := by simp [decodeF]

end Sys2Proof

namespace Sys2Proof.Machine

/-! ### What an instruction that writes I, memory or registers leaves -/

theorem Untouched.i_eq {w : Touches} {s t : State} (h : Untouched w s t) (hw : w.i = false) : t.i = s.i := by
  obtain ⟨-, -, hi, -⟩ := h
  exact hi hw

theorem Untouched.read_eq {w : Touches} {s t : State} {a : Nat} (h : Untouched w s t) (ha : a ∉ w.mem) :
    t.mem.read a = s.mem.read a := by
  obtain ⟨-, hmem, -⟩ := h
  exact hmem a ha

/-- A frame from the state after a write of I is one from the state before it, with I added. -/
theorem Untouched.of_i {w : Touches} {s t : State} {v : Word} (h : Untouched w { s with i := v } t) :
    Untouched { w with i := true } s t := by
  obtain ⟨hreg, hmem, -, hrest⟩ := h
  exact ⟨hreg, hmem, nofun, hrest⟩

/-- A frame from the state after a change of memory is one from the state before it, with the changed addresses added. -/
theorem Untouched.of_mem {w : Touches} {s t : State} {m : Memory} {as : List Nat}
    (hm : ∀ a, a ∉ as → m.read a = s.mem.read a) (h : Untouched w { s with mem := m } t) :
    Untouched { w with mem := w.mem ++ as } s t := by
  obtain ⟨hreg, hmem, hrest⟩ := h
  refine ⟨hreg, fun a ha => ?_, hrest⟩
  obtain ⟨hw, has⟩ : a ∉ w.mem ∧ a ∉ as := by simpa using ha
  exact (hmem a hw).trans (hm a has)

/-- A frame from the state after a change of registers is one from the state before it, with those registers added. -/
theorem Untouched.of_v {w : Touches} {s t : State} {v : Vector Byte 16} {rs : List RegIx}
    (hv : ∀ r, r ∉ rs → State.getV { s with v := v } r = s.getV r) (h : Untouched w { s with v := v } t) :
    Untouched { w with regs := w.regs ++ rs } s t := by
  obtain ⟨hreg, hrest⟩ := h
  refine ⟨fun r hr => ?_, hrest⟩
  obtain ⟨hw, hrs⟩ : r ∉ w.regs ∧ r ∉ rs := by simpa using hr
  exact (hreg r hw).trans (hv r hrs)

/-- A frame may name more registers than it needs. -/
theorem Untouched.of_regs_subset {w : Touches} {s t : State} {rs : List RegIx} (h : Untouched w s t)
    (hsub : w.regs ⊆ rs) : Untouched { w with regs := rs } s t := by
  obtain ⟨hreg, hrest⟩ := h
  exact ⟨fun r hr => hreg r fun hw => hr (hsub hw), hrest⟩

/-- An instruction that writes I and goes on: nothing else changes (R49). -/
theorem finishNext_setI_advances (s : State) (v : Word) :
    ∃ t, finishNext { s with i := v } = .next t ∧ AdvancedTo (s.pc + 2#16) t ∧ t.i = v ∧
      Untouched { i := true } s t := by
  obtain ⟨t, ht, hpc, hframe⟩ := finish_advances { s with i := v } (s.pc + 2#16)
  exact ⟨t, ht, hpc, hframe.i_eq rfl, hframe.of_i⟩

/-- A run of writes from I on changes no byte but at the effective addresses it reaches (R34, R73). -/
theorem read_writeList_at_i_other (s : State) (vs : List Byte) {a : Nat}
    (ha : a ∉ (List.range vs.length).map (effAddr s)) :
    (s.mem.writeList (effAddr s 0) vs).read a = s.mem.read a := by
  refine Memory.read_writeList_outside _ _ _ _ ?_
  by_contra hin
  obtain ⟨hlo, hhi⟩ : s.i.toNat ≤ a ∧ a < s.i.toNat + vs.length := by simp only [effAddr] at hin; omega
  exact ha (List.mem_map.2 ⟨a - s.i.toNat, List.mem_range.2 (by omega), Nat.add_sub_cancel' hlo⟩)

/-- An instruction that stores bytes from I on and goes on: byte `k` at `I + k`, and nothing else changes (R49, R73). -/
theorem finishNext_writeList_advances (s : State) (vs : List Byte) :
    ∃ t, finishNext { s with mem := s.mem.writeList (effAddr s 0) vs } = .next t ∧ AdvancedTo (s.pc + 2#16) t ∧
      (∀ (k : Nat) (h : k < vs.length), t.mem.read (effAddr s k) = vs[k]) ∧
      Untouched { mem := (List.range vs.length).map (effAddr s) } s t := by
  obtain ⟨t, ht, hpc, hframe⟩ :=
    finish_advances { s with mem := s.mem.writeList (effAddr s 0) vs } (s.pc + 2#16)
  refine ⟨t, ht, hpc, fun k hk => ?_, hframe.of_mem fun a => read_writeList_at_i_other s vs⟩
  exact (hframe.read_eq List.not_mem_nil).trans (Memory.read_writeList_inside s.mem (effAddr s 0) vs k hk)

/-! ### I plus a register -/

/-- FX1E raises IndexOverflow with the exact sum only under the policy `fault` and past 0xFFFF (R75, D7). -/
theorem addIWith_of_overflow {p : Config.Params} {x : RegIx} {s : State} (hp : p.iOverflow = .fault)
    (hsum : 0xFFFF < s.i.toNat + (s.getV x).toNat) :
    addIWith p x s = .next (s.recordFault (.indexOverflow (s.i.toNat + (s.getV x).toNat))) :=
  if_pos ⟨hp, hsum⟩

/-- Otherwise FX1E writes the sum into I, and VF after it under `FX1E_SETS_VF` (R75, D8). -/
theorem addIWith_of_fits {p : Config.Params} {x : RegIx} {s : State}
    (hfits : p.iOverflow = .wrap16 ∨ s.i.toNat + (s.getV x).toNat ≤ 0xFFFF) :
    addIWith p x s =
      let sum := s.i.toNat + (s.getV x).toNat
      let t : State := { s with i := BitVec.ofNat 16 sum }
      finishNext (if p.fx1eSetsVF then t.setV vf (indexFlag sum) else t) := by
  refine if_neg ?_
  rintro ⟨hp, hsum⟩
  rcases hfits with h | h
  · simp [hp] at h
  · omega

theorem indexFlag_eq (sum : Nat) : indexFlag sum = if 0xFFF < sum then 1#8 else 0#8 := by
  simp [indexFlag, flagByte]

/-- What FX1E leaves when it completes: VF is in the frame only under `FX1E_SETS_VF` (R75, D8). -/
theorem addIWith_advances {p : Config.Params} {x : RegIx} {s : State}
    (hfits : p.iOverflow = .wrap16 ∨ s.i.toNat + (s.getV x).toNat ≤ 0xFFFF) :
    let sum := s.i.toNat + (s.getV x).toNat
    ∃ t, addIWith p x s = .next t ∧ AdvancedTo (s.pc + 2#16) t ∧ t.i.toNat = sum % 65536 ∧
      t.getV vf = (if p.fx1eSetsVF then (if 0xFFF < sum then 1#8 else 0#8) else s.getV vf) ∧
      Untouched { i := true, regs := if p.fx1eSetsVF then [vf] else [] } s t := by
  intro sum
  rw [addIWith_of_fits hfits]
  cases p.fx1eSetsVF with
  | true =>
    obtain ⟨t, ht, hpc, hflag, hframe⟩ :=
      finishNext_setV_advances { s with i := BitVec.ofNat 16 sum } vf (indexFlag sum)
    exact ⟨t, ht, hpc, by rw [hframe.i_eq rfl, BitVec.toNat_ofNat], hflag.trans (indexFlag_eq sum), hframe.of_i⟩
  | false =>
    obtain ⟨t, ht, hpc, hi, hframe⟩ := finishNext_setI_advances s (BitVec.ofNat 16 sum)
    exact ⟨t, ht, hpc, by rw [hi, BitVec.toNat_ofNat], hframe.getV_eq List.not_mem_nil, hframe⟩

/-- Settles O17: the default machine faults past 0xFFFF and leaves VF; under other parameters the sum wraps or VF is
written. -/
theorem addToIndexIsExactOrOverflows : Obligations.AddToIndexIsExactOrOverflows := by
  unfold Obligations.AddToIndexIsExactOrOverflows
  refine fun x => ⟨decode_addIVx x, fun s => ⟨fun hle => ?_, fun hgt => addIWith_of_overflow rfl hgt,
    fun p => ⟨fun hfits => ?_, fun hp hgt => addIWith_of_overflow hp hgt⟩⟩⟩
  · obtain ⟨t, ht, hpc, hi, -, hframe⟩ := addIWith_advances (p := Config.params) (.inr hle)
    exact ⟨t, ht, hpc, by rw [hi, Nat.mod_eq_of_lt (by omega)], hframe⟩
  · obtain ⟨t, ht, hpc, hi, hvf, hframe⟩ := addIWith_advances hfits
    refine ⟨t, ht, hpc, hi, hvf, hframe.of_regs_subset ?_⟩
    split <;> simp

/-! ### Decimal digits -/

/-- Each digit is below 256, so its byte is the digit itself (R77). -/
theorem bcdDigits_toNat (b : Byte) :
    ((bcdDigits b)[0]).toNat = b.toNat / 100 ∧ ((bcdDigits b)[1]).toNat = b.toNat / 10 % 10 ∧
      ((bcdDigits b)[2]).toNat = b.toNat % 10 := by
  have hb := b.isLt
  refine ⟨Nat.mod_eq_of_lt ?_, Nat.mod_eq_of_lt ?_, Nat.mod_eq_of_lt ?_⟩ <;> omega

/-- Settles O18: FX33 stores its digits from I on, or raises the fault of the range check. -/
theorem bcdStoresThreeDigits : Obligations.BcdStoresThreeDigits := by
  unfold Obligations.BcdStoresThreeDigits
  refine fun x => ⟨decode_ldBVx x, fun s => ⟨fun hin => ?_, fun hout => withBytesAtI_fault _ (Nat.succ_pos _) hout⟩⟩
  obtain ⟨t, ht, hpc, hbytes, hframe⟩ := finishNext_writeList_advances s (bcdDigits (s.getV x))
  obtain ⟨hhundreds, htens, hones⟩ := bcdDigits_toNat (s.getV x)
  refine ⟨t, (withBytesAtI_ok _ (.inr hin)).trans ht, hpc, ?_, ?_, ?_, hframe⟩
  · rw [hbytes 0 (by simp), hhundreds]
  · rw [hbytes 1 (by simp), htens]
  · rw [hbytes 2 (by simp), hones]

/-! ### Registers to memory and back -/

/-- Settles O19: FX55 stores the registers up to `x` from I on, or raises the fault of the range check. -/
theorem storeRegistersWritesConsecutiveBytes : Obligations.StoreRegistersWritesConsecutiveBytes := by
  unfold Obligations.StoreRegistersWritesConsecutiveBytes
  refine fun x => ⟨decode_ldMemVx x, fun s => ⟨fun hin => ?_, fun hout => withBytesAtI_fault _ (Nat.succ_pos _) hout⟩⟩
  obtain ⟨t, ht, hpc, hbytes, hframe⟩ := finishNext_writeList_advances s ((regsUpTo x).map s.getV)
  rw [storedRegs_length] at hframe
  refine ⟨t, (withBytesAtI_ok _ (.inr hin)).trans ht, hpc, fun k hk => ?_, hframe⟩
  have hlen : k.val < (regsUpTo x).length := by rw [regsUpTo_length]; exact Nat.lt_succ_of_le hk
  rw [hbytes k.val (by simpa using hlen), List.getElem_map, Fin.ext (regsUpTo_getElem x k.val hlen)]

/-- The loop of register loads and what follows: the registers up to `x` from memory, and nothing else changes
(R49, R79). -/
theorem finishNext_loadRegs_advances (s : State) (x : RegIx) :
    ∃ t, finishNext (loadRegs s x) = .next t ∧ AdvancedTo (s.pc + 2#16) t ∧
      (∀ r, t.getV r = if r ≤ x then s.mem.read (effAddr s r.val) else s.getV r) ∧
      Untouched { regs := regsUpTo x } s t := by
  have hload := loadRegs_getV s x
  obtain ⟨v, hv⟩ := loadRegs_rest s x
  rw [hv] at hload ⊢
  obtain ⟨t, ht, hpc, hframe⟩ := finish_advances { s with v := v } (s.pc + 2#16)
  refine ⟨t, ht, hpc, fun r => (hframe.getV_eq List.not_mem_nil).trans (hload r), hframe.of_v fun r hr => ?_⟩
  rw [hload, if_neg (mt mem_regsUpTo.2 hr)]

/-- Settles O20: FX65 loads the registers up to `x` from I on, or raises the fault of the range check. -/
theorem loadRegistersReadsConsecutiveBytes : Obligations.LoadRegistersReadsConsecutiveBytes := by
  unfold Obligations.LoadRegistersReadsConsecutiveBytes
  refine fun x => ⟨decode_ldVxMem x, fun s => ⟨fun hin => ?_, fun hout => withBytesAtI_fault _ (Nat.succ_pos _) hout⟩⟩
  obtain ⟨t, ht, hpc, hload, hframe⟩ := finishNext_loadRegs_advances s x
  refine ⟨t, (withBytesAtI_ok _ (.inr hin)).trans ht, hpc, fun k hk => ?_, fun k hk => ?_, hframe⟩
  · rw [hload, if_pos hk]
  · rw [hload, if_neg (Fin.not_le.2 hk)]

/-! ### Loads of I -/

/-- The address field zero-extended is the same number (R43). -/
theorem zextAddr_toNat (nnn : Addr12) : (zextAddr nnn).toNat = nnn.toNat :=
  BitVec.toNat_setWidth_of_le (by decide)

/-- Settles O16: each of the two writes I and goes on, with a value that fits in 16 bits. -/
theorem indexLoadsSetI : Obligations.IndexLoadsSetI := by
  unfold Obligations.IndexLoadsSetI
  refine ⟨fun nnn => ⟨decode_ldI nnn, fun s => ?_⟩, fun x => ⟨decode_ldFVx x, fun s => ?_⟩⟩
  · obtain ⟨t, ht, hpc, hi, hframe⟩ := finishNext_setI_advances s (zextAddr nnn)
    exact ⟨t, ht, hpc, by rw [hi, zextAddr_toNat], hframe⟩
  · obtain ⟨t, ht, hpc, hi, hframe⟩ := finishNext_setI_advances s (BitVec.ofNat 16 ((s.getV x).toNat * 5))
    have hb := (s.getV x).isLt
    exact ⟨t, ht, hpc, by rw [hi, BitVec.toNat_ofNat, Nat.mod_eq_of_lt (by omega)], hframe⟩

end Sys2Proof.Machine
end

section
/-! PROOFS. The display: clear and XOR-draw (44_display.md R80, R81). -/

namespace Sys2Proof

theorem decode_drw (x y : RegIx) (n : Nibble) : decode (encXYN 0xD#4 x (nibbleOf y) n) = .ok (.drw x y n) := by
  simp [decode]

end Sys2Proof

namespace Sys2Proof.Machine

/-! ### What an instruction that writes the display leaves -/

theorem Untouched.pixel_eq {w : Touches} {s t : State} (h : Untouched w s t) (hw : w.display = false) (p : Nat) :
    t.pixel p = s.pixel p := by
  obtain ⟨-, -, -, -, -, -, hdisplay, -⟩ := h
  exact (hdisplay hw).1 p

theorem Untouched.dirty_eq {w : Touches} {s t : State} (h : Untouched w s t) (hw : w.display = false) :
    t.dirty = s.dirty := by
  obtain ⟨-, -, -, -, -, -, hdisplay, -⟩ := h
  exact (hdisplay hw).2

/-- A frame from the state after a write of the display is one from the state before it, with the display added. -/
theorem Untouched.of_display {w : Touches} {s t : State} {fb : Plane} {d : Bool}
    (h : Untouched w { s with fb := fb, dirty := d } t) : Untouched { w with display := true } s t := by
  obtain ⟨hreg, hmem, hi, hstack, hdt, hst, -, hrest⟩ := h
  exact ⟨hreg, hmem, hi, hstack, hdt, hst, nofun, hrest⟩

/-! ### Clear -/

/-- Settles O21: 00E0 ends with the blank plane and DIRTY in place of the display, and writes nothing else. -/
theorem clearScreenZeroesThePlane : Obligations.ClearScreenZeroesThePlane := by
  unfold Obligations.ClearScreenZeroesThePlane
  refine ⟨rfl, fun s => ?_⟩
  obtain ⟨t, ht, hpc, hframe⟩ := finish_advances { s with fb := blankPlane, dirty := true } (s.pc + 2#16)
  exact ⟨t, ht, hpc, fun p => (hframe.pixel_eq rfl p).trans (pixel_blankPlane p), hframe.dirty_eq rfl,
    hframe.of_display⟩

/-! ### The pixels of a draw -/

/-- The pixels that `DXYN` in `s` flips, in the order of its loop (R81). -/
def drawnPixels (s : State) (x y : RegIx) (n : Nibble) : List Nat :=
  spritePixels (s.getV x) (s.getV y) 0 (bytesAtI s n.toNat)

theorem mem_drawnPixels {s : State} {x y : RegIx} {n : Nibble} {p : Nat} :
    p ∈ drawnPixels s x y n ↔ SpriteLands s x y n p := by
  have hrow : ∀ row, row < n.toNat → (bytesAtI s n.toNat).getD row 0#8 = s.mem.read (effAddr s row) := by
    intro row h
    have hlen : row < (bytesAtI s n.toNat).length := by rwa [bytesAtI_length]
    rw [List.getD_eq_getElem _ _ hlen, bytesAtI_getElem]
  simp only [drawnPixels, mem_spritePixels, bytesAtI_length, Nat.zero_add]
  refine exists₂_congr fun row col => and_congr_right fun h => ?_
  rw [hrow row h]
  rfl

theorem drawnPixels_lt (s : State) (x y : RegIx) (n : Nibble) : ∀ p ∈ drawnPixels s x y n, p < 2048 :=
  spritePixels_lt

/-- A sprite has at most 15 rows, so no pixel is flipped twice (R81). -/
theorem drawnPixels_nodup (s : State) (x y : RegIx) (n : Nibble) : (drawnPixels s x y n).Nodup := by
  refine spritePixels_nodup ?_
  have hn := n.isLt
  rw [bytesAtI_length]
  omega

/-- A draw changes a pixel exactly when a set sprite bit lands on it (R81). -/
theorem pixel_paint_drawnPixels (s : State) (x y : RegIx) (n : Nibble) (p : Nat) :
    Plane.pixel (paint s.fb (drawnPixels s x y n)).1 p = true ↔
      ¬ (s.pixel p = true ↔ SpriteLands s x y n p) := by
  rw [paint_pixel (drawnPixels_lt s x y n) (drawnPixels_nodup s x y n), ← mem_drawnPixels, Bool.xor_iff_ne, ne_eq,
    Bool.eq_iff_iff, decide_eq_true_eq]
  rfl

/-- A draw erases a pixel exactly when a set sprite bit lands on one that was 1 (R81). -/
theorem paint_drawnPixels_hit (s : State) (x y : RegIx) (n : Nibble) :
    (paint s.fb (drawnPixels s x y n)).2 = true ↔ ∃ p, SpriteLands s x y n p ∧ s.pixel p = true := by
  rw [paint_hit (drawnPixels_lt s x y n) (drawnPixels_nodup s x y n), List.any_eq_true]
  exact exists_congr fun p => and_congr_left' mem_drawnPixels

/-! ### Draw -/

/-- What DXYN leaves when its rows are in memory: the parameters reach only the VF of a draw that erases nothing
(R81, D12). -/
theorem drawWith_advances (p : Config.Params) (x y : RegIx) {n : Nibble} {s : State}
    (hin : n = 0#4 ∨ effAddr s (n.toNat - 1) ≤ 0xFFF) :
    ∃ t, drawWith p x y n s = .next t ∧ AdvancedTo (s.pc + 2#16) t ∧
      (∀ q, t.pixel q = true ↔ ¬ (s.pixel q = true ↔ SpriteLands s x y n q)) ∧
      ((∃ q, SpriteLands s x y n q ∧ s.pixel q = true) → t.getV vf = 1#8) ∧
      ((¬ ∃ q, SpriteLands s x y n q ∧ s.pixel q = true) →
        t.getV vf = if p.drawClearsVF then 0#8 else s.getV vf) ∧
      t.dirty = true ∧ Untouched { regs := [vf], display := true } s t := by
  obtain ⟨t, ht, hpc, hvf, hframe⟩ :=
    finishNext_setV_advances { s with fb := (paint s.fb (drawnPixels s x y n)).1, dirty := true } vf
      (collisionFlag p (s.getV vf) (paint s.fb (drawnPixels s x y n)).2)
  refine ⟨t, (withBytesAtI_ok _ (hin.imp_left (congrArg BitVec.toNat))).trans ht, hpc, fun q => ?_, fun hhit => ?_,
    fun hmiss => ?_, hframe.dirty_eq rfl, hframe.of_display⟩
  · rw [hframe.pixel_eq rfl q]
    exact pixel_paint_drawnPixels s x y n q
  · rw [hvf, collisionFlag, if_pos ((paint_drawnPixels_hit s x y n).2 hhit)]
  · rw [hvf, collisionFlag, if_neg (mt (paint_drawnPixels_hit s x y n).1 hmiss)]

/-- A sprite row above 0xFFF: DXYN raises AddressFault and changes nothing else, under any parameters (R73, D5). -/
theorem drawWith_of_outside (p : Config.Params) (x y : RegIx) {n : Nibble} {s : State} (hn : n ≠ 0#4)
    (hout : 0xFFF < effAddr s (n.toNat - 1)) :
    drawWith p x y n s = .next (s.recordFault (.addressFault (max s.i.toNat 0x1000))) :=
  withBytesAtI_fault _ (Nat.pos_of_ne_zero (mt (BitVec.eq_of_toNat_eq (y := 0#4)) hn)) hout

/-- Settles O22: the default machine and any other draw alike but for their parameters, so they agree on every pixel and
differ only in the VF of a draw that erases nothing. -/
theorem drawFlipsTheSpritePixels : Obligations.DrawFlipsTheSpritePixels := by
  unfold Obligations.DrawFlipsTheSpritePixels
  refine fun x y n => ⟨decode_drw x y n, fun s => ⟨fun hin => ?_, drawWith_of_outside Config.params x y⟩⟩
  obtain ⟨t, ht, hpc, hpixel, hhit, hmiss, hdirty, hframe⟩ := drawWith_advances Config.params x y hin
  refine ⟨t, ht, hpc, hpixel, hhit, hmiss, hdirty, hframe, fun p hp => ?_⟩
  obtain ⟨u, hu, hpc', hpixel', hhit', hmiss', hdirty', hframe'⟩ := drawWith_advances p x y hin
  refine ⟨u, hu, hpc', fun q => ?_, hhit', fun h => ?_, hdirty', hframe'⟩
  · exact Bool.eq_iff_iff.2 ((hpixel' q).trans (hpixel q).symm)
  · rw [hmiss' h, hp, if_neg Bool.false_ne_true]

end Sys2Proof.Machine
end

section
/-! PROOFS. Key skips, timer access and the key wait (45_keypad_timers.md R82 to R88). -/

namespace Sys2Proof

/-! ### The words of the keypad and timer instructions -/

/-- Family E is the key skips', and `decodeE` alone answers for it. -/
theorem decode_of_family_E {w : Word} (h : family w = 0xE#4) : decode w = decodeE w := by
  simp [decode, h]

@[simp] theorem decode_encXNN_E (x : RegIx) (nn : Byte) : decode (encXNN 0xE#4 x nn) = decodeE (encXNN 0xE#4 x nn) :=
  decode_of_family_E (family_encXNN ..)

theorem decode_skp (x : RegIx) : decode (encXNN 0xE#4 x 0x9E#8) = .ok (.skp x) := by simp [decodeE]

theorem decode_sknp (x : RegIx) : decode (encXNN 0xE#4 x 0xA1#8) = .ok (.sknp x) := by simp [decodeE]

theorem decode_ldVxDt (x : RegIx) : decode (encXNN 0xF#4 x 0x07#8) = .ok (.ldVxDt x) := by simp [decodeF]

theorem decode_ldVxK (x : RegIx) : decode (encXNN 0xF#4 x 0x0A#8) = .ok (.ldVxK x) := by simp [decodeF]

theorem decode_ldDtVx (x : RegIx) : decode (encXNN 0xF#4 x 0x15#8) = .ok (.ldDtVx x) := by simp [decodeF]

theorem decode_ldStVx (x : RegIx) : decode (encXNN 0xF#4 x 0x18#8) = .ok (.ldStVx x) := by simp [decodeF]

end Sys2Proof

namespace Sys2Proof.Machine

/-! ### What an instruction that writes a timer leaves -/

theorem Untouched.dt_eq {w : Touches} {s t : State} (h : Untouched w s t) (hw : w.dt = false) : t.dt = s.dt := by
  obtain ⟨-, -, -, -, hdt, -⟩ := h
  exact hdt hw

theorem Untouched.st_eq {w : Touches} {s t : State} (h : Untouched w s t) (hw : w.st = false) : t.st = s.st := by
  obtain ⟨-, -, -, -, -, hst, -⟩ := h
  exact hst hw

/-- A frame from the state after a write of DT is one from the state before it, with DT added. -/
theorem Untouched.of_dt {w : Touches} {s t : State} {v : Byte} (h : Untouched w { s with dt := v } t) :
    Untouched { w with dt := true } s t := by
  obtain ⟨hreg, hmem, hi, hstack, -, hrest⟩ := h
  exact ⟨hreg, hmem, hi, hstack, nofun, hrest⟩

/-- A frame from the state after a write of ST is one from the state before it, with ST added. -/
theorem Untouched.of_st {w : Touches} {s t : State} {v : Byte} (h : Untouched w { s with st := v } t) :
    Untouched { w with st := true } s t := by
  obtain ⟨hreg, hmem, hi, hstack, hdt, -, hrest⟩ := h
  exact ⟨hreg, hmem, hi, hstack, hdt, nofun, hrest⟩

/-- FX07 reads DT as the state holds it, and nothing else changes (R85). -/
theorem exec_ldVxDt_advances (x : RegIx) (s : State) :
    ∃ t, exec (.ldVxDt x) s = .next t ∧ AdvancedTo (s.pc + 2#16) t ∧ t.getV x = s.dt ∧
      Untouched { regs := [x] } s t :=
  finishNext_setV_advances s x s.dt

/-- FX15 writes DT and nothing else (R86). -/
theorem exec_ldDtVx_advances (x : RegIx) (s : State) :
    ∃ t, exec (.ldDtVx x) s = .next t ∧ AdvancedTo (s.pc + 2#16) t ∧ t.dt = s.getV x ∧
      Untouched { dt := true } s t := by
  obtain ⟨t, ht, hpc, hframe⟩ := finish_advances { s with dt := s.getV x } (s.pc + 2#16)
  exact ⟨t, ht, hpc, hframe.dt_eq rfl, hframe.of_dt⟩

/-- FX18 writes ST and nothing else (R87). -/
theorem exec_ldStVx_advances (x : RegIx) (s : State) :
    ∃ t, exec (.ldStVx x) s = .next t ∧ AdvancedTo (s.pc + 2#16) t ∧ t.st = s.getV x ∧
      Untouched { st := true } s t := by
  obtain ⟨t, ht, hpc, hframe⟩ := finish_advances { s with st := s.getV x } (s.pc + 2#16)
  exact ⟨t, ht, hpc, hframe.st_eq rfl, hframe.of_st⟩

/-! ### The whole step of an instruction -/

/-- The step of an instruction that completes is the instruction, then the tick (R89). -/
theorem step_of_exec_advances {s t : State} {i : Instr} {target : Word} (hr : s.Running) (hi : s.NextIs i)
    (ht : exec i s = .next t) (ha : AdvancedTo target t) : step s = .next (tick t) := by
  rw [step_exec hr hi, ht, afterExec_next, afterInstruction_advanced ha.2]

/-- The step of an instruction that blocks is the instruction alone, with no tick (R89). -/
theorem step_of_exec_blocked {s t : State} {i : Instr} (hr : s.Running) (hi : s.NextIs i)
    (ht : exec i s = .next t) (hb : t.lastStep = some .blocked) : step s = .next t := by
  rw [step_exec hr hi, ht, afterExec_next, afterInstruction_blocked hb]

/-- The events of a step whose instruction completes: the tick's beep if there is one (R97, R100). -/
theorem AdvancedTo.tick_lastStep {target : Word} {t : State} (ha : AdvancedTo target t) :
    (tick t).lastStep = some (.advanced (if t.st = 1#8 then [.beep] else [])) :=
  Machine.tick_lastStep ha.2

/-! ### Timer access -/

/-- Settles O25: each instruction completes, and the tick that follows counts down what it left in the timers. -/
theorem timerAccessPrecedesTheTick : Obligations.TimerAccessPrecedesTheTick := by
  unfold Obligations.TimerAccessPrecedesTheTick
  refine fun x => ⟨decode_ldVxDt x, decode_ldDtVx x, decode_ldStVx x, fun s => ⟨exec_ldVxDt_advances x s,
    exec_ldDtVx_advances x s, exec_ldStVx_advances x s, fun hr hi => ?_, fun hr hi => ?_, fun hr hi => ?_⟩⟩
  · obtain ⟨t, ht, hpc, hx, hframe⟩ := exec_ldVxDt_advances x s
    exact ⟨_, step_of_exec_advances hr hi ht hpc, by rw [tick_getV, hx], by rw [tick_dt_toNat, hframe.dt_eq rfl]⟩
  · obtain ⟨t, ht, hpc, hdt, -⟩ := exec_ldDtVx_advances x s
    exact ⟨_, step_of_exec_advances hr hi ht hpc, by rw [tick_dt_toNat, hdt]⟩
  · obtain ⟨t, ht, hpc, hst, -⟩ := exec_ldStVx_advances x s
    exact ⟨_, step_of_exec_advances hr hi ht hpc, by rw [tick_st_toNat, hst], by rw [hpc.tick_lastStep, hst]⟩

/-! ### The key wait -/

/-- FX0A with no key pressed blocks (R88). -/
theorem exec_ldVxK_of_noKey (x : RegIx) {s : State} (h : ∀ k, s.key k = false) :
    exec (.ldVxK x) s = .next { s with lastStep := some .blocked } := by
  rcases drawKey_cases s s.pressed with ⟨-, e⟩ | ⟨k, hk, -⟩
  · simp only [exec, execLdVxK, e, block_eq]
  · simp [pressed_eq_nil.2 h] at hk

/-- FX0A with a key pressed writes the index of a pressed key, in the state in which the draw has been counted (R88,
D10). -/
theorem exec_ldVxK_of_key (x : RegIx) {s : State} (h : ∃ k, s.key k = true) :
    ∃ k : KeyIx, s.key k = true ∧
      exec (.ldVxK x) s = finishNext (State.setV { s with draws := s.draws + 1 } x (BitVec.ofNat 8 k.val)) := by
  rcases drawKey_cases s s.pressed with ⟨hnil, -⟩ | ⟨k, hk, e⟩
  · obtain ⟨k, hk⟩ := h
    simp [pressed_eq_nil.1 hnil k] at hk
  · exact ⟨k, mem_pressed.1 hk, by simp only [exec, execLdVxK, e]⟩

/-- A key index fits in a byte. -/
theorem keyByte_toNat (k : KeyIx) : (BitVec.ofNat 8 k.val).toNat = k.val :=
  Nat.mod_eq_of_lt (k.isLt.trans (by decide))

/-- Settles O26: FX0A blocks, with no tick, or writes one register of the state in which the draw has been counted. -/
theorem keyWaitBlocksUntilAKeyIsPressed : Obligations.KeyWaitBlocksUntilAKeyIsPressed := by
  unfold Obligations.KeyWaitBlocksUntilAKeyIsPressed
  refine fun x => ⟨decode_ldVxK x, fun s => ⟨fun hnone => ?_, fun hsome => ?_⟩⟩
  · have hblock := exec_ldVxK_of_noKey x hnone
    exact ⟨hblock, fun hr hi => step_of_exec_blocked hr hi hblock rfl⟩
  · obtain ⟨k, hk, hexec⟩ := exec_ldVxK_of_key x hsome
    obtain ⟨t, ht, hpc, hx, hframe⟩ :=
      finishNext_setV_advances { s with draws := s.draws + 1 } x (BitVec.ofNat 8 k.val)
    exact ⟨t, k, hexec.trans ht, hpc, hk, by rw [hx, keyByte_toNat], hframe.draws_eq rfl, hframe.of_draws⟩

/-! ### Key skips -/

/-- An operand that is a key's index names that key (R82). -/
theorem withKey_of_key (s : State) {b : Byte} {k : KeyIx} (body : KeyIx → Result) (h : b.toNat = k.val) :
    withKey s b body = body k := by
  rcases withKey_cases s b body with ⟨hgt, -⟩ | ⟨hlt, e⟩
  · omega
  · rw [e, show (⟨b.toNat, hlt⟩ : KeyIx) = k from Fin.ext h]

/-- An operand above 15 names no key and raises KeyIndexFault (R82, D9). -/
theorem withKey_of_noKey (s : State) {b : Byte} (body : KeyIx → Result) (h : 15 < b.toNat) :
    withKey s b body = .next (s.recordFault (.keyIndexFault b)) := by
  rcases withKey_cases s b body with ⟨-, e⟩ | ⟨hlt, -⟩
  · exact e
  · omega

/-- EX9E skips when the key that `V[x]` names is pressed (R83). -/
theorem exec_skp_of_key {x : RegIx} {s : State} {k : KeyIx} (h : (s.getV x).toNat = k.val) :
    exec (.skp x) s = finishSkip s (decide (s.key k = true)) := by
  simp only [exec, execSkp, withKey_of_key s _ h, Bool.decide_eq_true]

/-- EXA1 skips when the key that `V[x]` names is not pressed (R84). -/
theorem exec_sknp_of_key {x : RegIx} {s : State} {k : KeyIx} (h : (s.getV x).toNat = k.val) :
    exec (.sknp x) s = finishSkip s (decide (s.key k = false)) := by
  simp only [exec, execSknp, withKey_of_key s _ h, Bool.decide_eq_false]

/-- EX9E raises KeyIndexFault when `V[x]` names no key (R83, D9). -/
theorem exec_skp_of_noKey {x : RegIx} {s : State} (h : 15 < (s.getV x).toNat) :
    exec (.skp x) s = .next (s.recordFault (.keyIndexFault (s.getV x))) := by
  simp only [exec, execSkp, withKey_of_noKey s _ h]

/-- EXA1 raises KeyIndexFault when `V[x]` names no key (R84, D9). -/
theorem exec_sknp_of_noKey {x : RegIx} {s : State} (h : 15 < (s.getV x).toNat) :
    exec (.sknp x) s = .next (s.recordFault (.keyIndexFault (s.getV x))) := by
  simp only [exec, execSknp, withKey_of_noKey s _ h]

/-- Settles O24: with a key named, each of the two is a skip on its own condition; with none, both raise one fault. -/
theorem keySkipsTestTheNamedKey : Obligations.KeySkipsTestTheNamedKey := by
  unfold Obligations.KeySkipsTestTheNamedKey
  refine fun x => ⟨decode_skp x, decode_sknp x, fun s => ⟨fun k hk => ?_, fun hgt =>
    ⟨exec_skp_of_noKey hgt, exec_sknp_of_noKey hgt⟩⟩⟩
  rw [exec_skp_of_key hk, exec_sknp_of_key hk]
  exact ⟨finishSkip_advances s (s.key k = true), finishSkip_advances s (s.key k = false)⟩

end Sys2Proof.Machine
end

section
/-! PROOFS. The outcomes of a step, the table of faults, the way out of a fault and a step's events (60_exceptions.md R89 to R100). -/

namespace Sys2Proof.Machine

/-! ### Which instruction raises which fault (R91) -/

/-- An instruction raises a fault wherever its row of R91's table says so. -/
theorem exec_of_raises {i : Instr} {s : State} {f : CoreFault} (h : RaisesIn i s f) :
    exec i s = .next (s.recordFault f) := by
  cases i with
  | ret => obtain ⟨hsp, rfl⟩ := h; exact exec_ret_of_empty (congrArg Fin.val hsp)
  | call nnn => obtain ⟨hsp, rfl⟩ := h; exact exec_call_of_full nnn (congrArg Fin.val hsp)
  | skp x => obtain ⟨hkey, rfl⟩ := h; exact exec_skp_of_noKey hkey
  | sknp x => obtain ⟨hkey, rfl⟩ := h; exact exec_sknp_of_noKey hkey
  | addIVx x => obtain ⟨hsum, rfl⟩ := h; exact addIWith_of_overflow rfl hsum
  | drw x y n => obtain ⟨hn, hout, rfl⟩ := h; exact drawWith_of_outside Config.params x y hn hout
  | ldBVx x => obtain ⟨hout, rfl⟩ := h; exact withBytesAtI_fault _ (Nat.succ_pos 2) hout
  | ldMemVx x => obtain ⟨hout, rfl⟩ := h; exact withBytesAtI_fault _ (Nat.succ_pos x.val) hout
  | ldVxMem x => obtain ⟨hout, rfl⟩ := h; exact withBytesAtI_fault _ (Nat.succ_pos x.val) hout
  | _ => exact False.elim h

/-- At most one fault applies to one instruction (R94): exec has one answer. -/
theorem RaisesIn.unique {i : Instr} {s : State} {f g : CoreFault} (hf : RaisesIn i s f) (hg : RaisesIn i s g) :
    f = g := by
  have h := (exec_of_raises hf).symm.trans (exec_of_raises hg)
  simpa [State.recordFault] using h

/-- At most one fault applies to one state (R94): a fetch that faults leaves no instruction. -/
theorem StepRaises.unique {s : State} {f g : CoreFault} (hf : StepRaises s f) (hg : StepRaises s g) : f = g := by
  rcases hf with ⟨hout, rfl⟩ | ⟨i, hi, hf⟩ <;> rcases hg with ⟨hout', rfl⟩ | ⟨j, hj, hg⟩
  · rfl
  · exact absurd hj.1 (by omega)
  · exact absurd hi.1 (by omega)
  · obtain rfl := hi.unique hj
    exact hf.unique hg

/-! ### The step that faults (R92) -/

/-- The step of an instruction that faults is the instruction alone, with no tick (R89). -/
theorem step_of_exec_faulted {s : State} {i : Instr} {f : CoreFault} (hr : s.Running) (hi : s.NextIs i)
    (ht : exec i s = .next (s.recordFault f)) : step s = .next (s.recordFault f) := by
  rw [step_exec hr hi, ht, afterExec_next, afterInstruction_faulted rfl]

/-- A fault of the table is recorded by the step of a running core. -/
theorem step_of_stepRaises {s : State} {f : CoreFault} (hr : s.Running) (h : StepRaises s f) :
    step s = .next (s.recordFault f) := by
  rcases h with ⟨hout, rfl⟩ | ⟨i, hi, hf⟩
  · exact step_fetchFault hr hout
  · exact step_of_exec_faulted hr hi (exec_of_raises hf)

/-- A core that runs has recorded no fault. -/
theorem State.Running.not_faultedWith {s : State} {f : CoreFault} (hr : s.Running) : ¬ s.FaultedWith f := by
  unfold State.Running at hr
  simp [State.FaultedWith, hr]

/-- A step that leaves a fault has recorded it, and the table gives it: the other ends of a step keep `RUN`. -/
theorem step_faultedWith {s t : State} {f : CoreFault} (h : step s = .next t) (hf : t.FaultedWith f) :
    t = s.recordFault f ∧ StepRaises s f := by
  obtain ⟨hr, ⟨hout, rfl⟩ | ⟨i, u, hi, hu, rfl⟩ | ⟨w, -, -, rfl⟩⟩ := step_cases h
  · obtain rfl := RunStatus.faulted.inj hf
    exact ⟨rfl, .inl ⟨hout, rfl⟩⟩
  · have hf : u.FaultedWith f := (afterInstruction_run u).symm.trans hf
    rcases exec_cases hu with ⟨-, hrun⟩ | ⟨rfl, -⟩ | ⟨g, rfl, hg⟩
    · exact absurd (hrun.symm.trans hf) hr.not_faultedWith
    · exact absurd hf hr.not_faultedWith
    · obtain rfl := RunStatus.faulted.inj hf
      exact ⟨afterInstruction_faulted rfl, .inr ⟨i, hi, hg⟩⟩
  · exact absurd ((tick_run (unknownOpcode s w)).symm.trans hf) hr.not_faultedWith

/-- Settles O31: the step recorded the fault, and a faulted core has no step. -/
theorem faultingStepChangesOnlyRun : Obligations.FaultingStepChangesOnlyRun := by
  unfold Obligations.FaultingStepChangesOnlyRun
  intro s t f _ h hf
  obtain ⟨rfl, -⟩ := step_faultedWith h hf
  exact ⟨rfl, rfl, step_faulted rfl⟩

/-- Settles O32: a step that leaves a fault meets the table's condition, and a condition of the table makes the step
fault. -/
theorem stepFaultsExactlyAsTabled : Obligations.StepFaultsExactlyAsTabled := by
  unfold Obligations.StepFaultsExactlyAsTabled
  refine ⟨fun s f hr => ⟨?_, fun h => ⟨_, step_of_stepRaises hr h, rfl⟩⟩, fun s f g => StepRaises.unique,
    fun p a v => ⟨rfl, rfl, rfl, rfl, rfl, rfl⟩⟩
  rintro ⟨t, h, hf⟩
  exact (step_faultedWith h hf).2

/-! ### The outcomes of a step (R89) -/

/-- The step of a running core at an instruction: it advances and ticks, or blocks, or faults. -/
theorem step_outcome_of_nextIs {s : State} {i : Instr} (hr : s.Running) (hi : s.NextIs i) :
    ∃ t, exec i s = .next t ∧
      ((t.lastStep = some (.advanced []) ∧ t.Running ∧ step s = .next (tick t)) ∨
       (t = { s with lastStep := some .blocked } ∧ step s = .next t) ∨
       (∃ f, t = s.recordFault f ∧ step s = .next t)) := by
  obtain ⟨t, ht⟩ := exec_next i s
  refine ⟨t, ht, ?_⟩
  rcases exec_cases ht with ⟨ha, hrun⟩ | ⟨rfl, -⟩ | ⟨f, rfl, -⟩
  · exact .inl ⟨ha, hrun.trans hr, step_of_exec_advances hr hi ht ⟨rfl, ha⟩⟩
  · exact .inr (.inl ⟨rfl, step_of_exec_blocked hr hi ht rfl⟩)
  · exact .inr (.inr ⟨f, rfl, step_of_exec_faulted hr hi ht⟩)

/-- Settles O29, from the step of a faulted core and the three steps of a running one: at the end of memory, at an
instruction, at an unknown word. -/
theorem stepHasOneOfThreeOutcomes : Obligations.StepHasOneOfThreeOutcomes := by
  unfold Obligations.StepHasOneOfThreeOutcomes
  exact fun s => ⟨fun f => step_faulted, fun hr =>
    ⟨step_fetchFault hr, fun i => step_outcome_of_nextIs hr, fun w => step_unknown hr⟩⟩

/-! ### The way out of a fault (R93) -/

/-- Every move of the host but its reset leaves `RUN`. -/
theorem hostAct_run {a : HostAction} (ha : ∀ rom, a ≠ .reset rom) (s : State) : (hostAct a s).run = s.run := by
  cases a with
  | writeKeys keys => rfl
  | readFrame => rfl
  | consumeFrame => rfl
  | reset rom => exact absurd rfl (ha rom)

/-- A faulted core cannot step. -/
theorem Move.next_step_of_faulted {s : State} {f : CoreFault} (h : s.FaultedWith f) : Move.step.next s = none := by
  simp only [Move.next, step_faulted h]

/-- Only the host's reset can leave a fault. -/
theorem Move.eq_reset_of_leaves_fault {m : Move} {s t : State} {f : CoreFault} (hs : s.FaultedWith f)
    (h : m.next s = some t) (ht : ¬ t.FaultedWith f) : ∃ rom, m = .host (.reset rom) := by
  cases m with
  | step => simp [Move.next_step_of_faulted hs] at h
  | host a =>
    obtain rfl := Option.some.inj h
    by_contra hno
    have ha : ∀ rom, a ≠ .reset rom := fun rom e => hno ⟨rom, congrArg _ e⟩
    exact ht ((hostAct_run ha s).trans hs)

/-- A reset that succeeds answers a running core, which takes nothing from the state before but the count of draws
(R93, R106). -/
theorem hostReset_rebuilds {rom : List Byte} {s t : State} (h : hostReset rom s = .ok t) :
    t.Running ∧ ∀ s' : State, hostReset rom s' = .ok { t with draws := s'.draws } := by
  rcases hostResetWith_cases Config.params rom s with ⟨hfits, e⟩ | ⟨-, e⟩
  · obtain rfl := Except.ok.inj (e.symm.trans h)
    exact ⟨rfl, hostResetWith_of_fits Config.params hfits⟩
  · exact nomatch e.symm.trans h

/-- Settles O33, from the moves of a faulted core and what a reset answers. -/
theorem onlyResetLeavesFaulted : Obligations.OnlyResetLeavesFaulted := by
  unfold Obligations.OnlyResetLeavesFaulted
  exact ⟨fun _ _ _ _ => Move.eq_reset_of_leaves_fault, fun _ _ _ => hostReset_rebuilds⟩

/-! ### The events of a step (R100) -/

/-- A step that advances ran an instruction, with the tick's beep as its only event, or met an unknown word. -/
theorem step_advanced_cases {s t : State} {es : List Event} (h : step s = .next t)
    (ha : t.lastStep = some (.advanced es)) :
    (∃ i u, s.NextIs i ∧ exec i s = .next u ∧ es = if u.st = 1#8 then [.beep] else []) ∨
    (∃ w, fetch s = .ok w ∧ decode w = .error (.unknownOpcode w) ∧
      es = .unknownOpcode w :: if s.st = 1#8 then [.beep] else []) := by
  obtain ⟨-, ⟨-, rfl⟩ | ⟨i, u, hi, hu, rfl⟩ | ⟨w, hw, hd, rfl⟩⟩ := step_cases h
  · simp [State.recordFault] at ha
  · rcases exec_cases hu with ⟨hadv, -⟩ | ⟨rfl, -⟩ | ⟨f, rfl, -⟩
    · rw [afterInstruction_advanced hadv, tick_lastStep hadv] at ha
      exact .inl ⟨i, u, hi, hu, by simpa using ha.symm⟩
    · simp [afterInstruction_blocked] at ha
    · simp [afterInstruction_faulted, State.recordFault] at ha
  · rw [tick_unknownOpcode_lastStep] at ha
    exact .inr ⟨w, hw, hd, by simpa using ha.symm⟩

/-- Settles O35: an instruction brings at most the tick's beep, an unknown word its own event before it. -/
theorem stepEmitsAtMostOneOfEachEvent : Obligations.StepEmitsAtMostOneOfEachEvent := by
  unfold Obligations.StepEmitsAtMostOneOfEachEvent
  intro s t es h ha
  rcases step_advanced_cases h ha with ⟨i, u, -, -, rfl⟩ | ⟨w, hw, hd, rfl⟩
  · split
    · exact .inr (.inl rfl)
    · exact .inl rfl
  · refine .inr (.inr ⟨w, hw, fun i hi => (nomatch hd.symm.trans hi), ?_⟩)
    split
    · exact .inr rfl
    · exact .inl rfl

end Sys2Proof.Machine
end

section
/-! PROOFS. The encoding: the decoder and the encoder invert each other, and the decoder agrees with the opcode table (30_encoding.md R42 to R50). -/

namespace Sys2Proof

/-! ### The decoder on an encoded instruction -/

/-- Settles O2, from what the decoder answers for the word of each instruction. -/
theorem decodeOfEncodeIsTheInstruction : Obligations.DecodeOfEncodeIsTheInstruction := by
  unfold Obligations.DecodeOfEncodeIsTheInstruction
  intro i
  cases i with
  | cls => rfl
  | ret => rfl
  | jp nnn => exact decode_jp nnn
  | call nnn => exact decode_call nnn
  | seImm x nn => exact decode_seImm x nn
  | sneImm x nn => exact decode_sneImm x nn
  | seReg x y => exact decode_seReg x y
  | ldImm x nn => exact decode_ldImm x nn
  | addImm x nn => exact decode_addImm x nn
  | ldReg x y => exact decode_ldReg x y
  | orReg x y => exact decode_orReg x y
  | andReg x y => exact decode_andReg x y
  | xorReg x y => exact decode_xorReg x y
  | addReg x y => exact decode_addReg x y
  | sub x y => exact decode_sub x y
  | shr x => exact decode_shr x 0x0#4
  | subn x y => exact decode_subn x y
  | shl x => exact decode_shl x 0x0#4
  | sneReg x y => exact decode_sneReg x y
  | ldI nnn => exact decode_ldI nnn
  | jpV0 nnn => exact decode_jpV0 nnn
  | rnd x nn => exact decode_rnd x nn
  | drw x y n => exact decode_drw x y n
  | skp x => exact decode_skp x
  | sknp x => exact decode_sknp x
  | ldVxDt x => exact decode_ldVxDt x
  | ldVxK x => exact decode_ldVxK x
  | ldDtVx x => exact decode_ldDtVx x
  | ldStVx x => exact decode_ldStVx x
  | addIVx x => exact decode_addIVx x
  | ldFVx x => exact decode_ldFVx x
  | ldBVx x => exact decode_ldBVx x
  | ldMemVx x => exact decode_ldMemVx x
  | ldVxMem x => exact decode_ldVxMem x

/-- Settles O1: the decoder computes on each of the words. -/
theorem wordsFromThePatternsDecode : Obligations.WordsFromThePatternsDecode := by
  unfold Obligations.WordsFromThePatternsDecode
  exact ⟨rfl, rfl, rfl, rfl, rfl, rfl, rfl, rfl, rfl, rfl, rfl, rfl, rfl, rfl, rfl, rfl, rfl, rfl, rfl, rfl⟩

/-! ### The encoder on a decoded word -/

/-- A word of known family is that family and its `NNN`. -/
theorem encNNN_of_family {w : Word} {f : Nibble} (hf : family w = f) : encNNN f (fieldNNN w) = w :=
  hf ▸ encNNN_fields w

/-- A word of known family is that family, its `X` and its `NN`. -/
theorem encXNN_of_family {w : Word} {f : Nibble} (hf : family w = f) :
    encXNN f (regOf (nibbleX w)) (fieldNN w) = w := hf ▸ encXNN_fields w

/-- A word of known family and `NN` is those two and its `X`. -/
theorem encXNN_of_fieldNN {w : Word} {f : Nibble} {nn : Byte} (hf : family w = f) (hnn : fieldNN w = nn) :
    encXNN f (regOf (nibbleX w)) nn = w := hnn ▸ encXNN_of_family hf

/-- A word of known family and `N` is those two, its `X` and its `Y`. -/
theorem encXYN_of_nibbleN {w : Word} {f n : Nibble} (hf : family w = f) (hn : nibbleN w = n) :
    encXYN f (regOf (nibbleX w)) (nibbleOf (regOf (nibbleY w))) n = w := hf ▸ hn ▸ encXYN_fields w

/-- Clearing bits 7 to 4 of a word clears its `Y`. -/
theorem encXYN_and_clearY (f : Nibble) (x : RegIx) (y n : Nibble) :
    encXYN f x y n &&& 0xFF0F#16 = encXYN f x 0x0#4 n :=
  and_append_of (a' := 0xF#4) (b' := 0xF0F#12) BitVec.and_allOnes
    (and_append_of (a' := 0xF#4) (b' := 0x0F#8) BitVec.and_allOnes
      (and_append_of (a' := 0x0#4) (b' := 0xF#4) BitVec.and_zero BitVec.and_allOnes))

/-- Outside family 8 no nibble is ignored (R43). -/
theorem clearIgnored_of_family_ne {w : Word} (hf : family w ≠ 0x8#4) : clearIgnored w = w :=
  if_neg fun h => hf h.1

/-- In family 8 the two shifts, whose low nibbles are 6 and E, ignore `Y` (R69, R71). -/
theorem clearIgnored_of_family_eight {w : Word} (hf : family w = 0x8#4) :
    clearIgnored w = encXYN 0x8#4 (regOf (nibbleX w))
      (if nibbleN w = 0x6#4 ∨ nibbleN w = 0xE#4 then 0x0#4 else nibbleY w) (nibbleN w) := by
  have hw : encXYN 0x8#4 (regOf (nibbleX w)) (nibbleY w) (nibbleN w) = w := hf ▸ encXYN_fields w
  unfold clearIgnored
  split
  · rename_i h
    rw [if_pos h.2, ← encXYN_and_clearY _ _ (nibbleY w), hw]
  · rename_i h
    rw [if_neg fun hshift => h ⟨hf, hshift⟩, hw]

theorem encode_of_decodeZero {w : Word} {i : Instr} (h : decodeZero w = .ok i) : encode i = w := by
  unfold decodeZero at h
  repeat' split at h
  all_goals cases h
  all_goals exact Eq.symm ‹_›

theorem encode_of_decodeXY0 {w : Word} {f : Nibble} {op : RegIx → RegIx → Instr} {i : Instr} (hf : family w = f)
    (hop : ∀ x y, encode (op x y) = encXYN f x (nibbleOf y) 0x0#4) (h : decodeXY0 w op = .ok i) : encode i = w := by
  unfold decodeXY0 at h
  split at h
  · cases h
    rw [hop]
    exact encXYN_of_nibbleN hf ‹_›
  · cases h

theorem encode_of_decodeE {w : Word} {i : Instr} (hf : family w = 0xE#4) (h : decodeE w = .ok i) : encode i = w := by
  simp only [decodeE] at h
  repeat' split at h
  all_goals cases h
  all_goals exact encXNN_of_fieldNN hf ‹_›

theorem encode_of_decodeF {w : Word} {i : Instr} (hf : family w = 0xF#4) (h : decodeF w = .ok i) : encode i = w := by
  simp only [decodeF] at h
  repeat' split at h
  all_goals cases h
  all_goals exact encXNN_of_fieldNN hf ‹_›

theorem encode_of_decodeEight {w : Word} {i : Instr} (hf : family w = 0x8#4) (h : decodeEight w = .ok i) :
    encode i = clearIgnored w := by
  rw [clearIgnored_of_family_eight hf]
  simp only [decodeEight] at h
  repeat' split at h
  all_goals cases h
  all_goals simp [encode, *]

/-- The sixteen families (R42). -/
theorem family_cases (w : Word) :
    family w = 0x0#4 ∨ family w = 0x1#4 ∨ family w = 0x2#4 ∨ family w = 0x3#4 ∨ family w = 0x4#4 ∨ family w = 0x5#4 ∨
    family w = 0x6#4 ∨ family w = 0x7#4 ∨ family w = 0x8#4 ∨ family w = 0x9#4 ∨ family w = 0xA#4 ∨ family w = 0xB#4 ∨
    family w = 0xC#4 ∨ family w = 0xD#4 ∨ family w = 0xE#4 ∨ family w = 0xF#4 := by bv_omega

/-- Family 0 is selected by the whole word, and `decodeZero` alone answers for it. -/
theorem decode_of_family_zero {w : Word} (h : family w = 0x0#4) : decode w = decodeZero w := by
  simp [decode, h]

/-- A word that is some instruction's own is given back: it decodes to that instruction and to no other. -/
theorem encode_of_decode_encoded {w : Word} {i : Instr} (j : Instr) (hj : encode j = w) (h : decode w = .ok i) :
    encode i = w := by
  subst hj
  obtain rfl := Except.ok.inj ((decodeOfEncodeIsTheInstruction j).symm.trans h)
  rfl

/-- The encoder gives a decoded word back but for the nibble a shift ignores. -/
theorem encode_of_decode {w : Word} {i : Instr} (h : decode w = .ok i) : encode i = clearIgnored w := by
  by_cases h8 : family w = 0x8#4
  · exact encode_of_decodeEight h8 ((decode_of_family_eight h8).symm.trans h)
  rw [clearIgnored_of_family_ne h8]
  rcases family_cases w with hf | hf | hf | hf | hf | hf | hf | hf | hf | hf | hf | hf | hf | hf | hf | hf
  · exact encode_of_decodeZero ((decode_of_family_zero hf).symm.trans h)
  · exact encode_of_decode_encoded (.jp _) (encNNN_of_family hf) h
  · exact encode_of_decode_encoded (.call _) (encNNN_of_family hf) h
  · exact encode_of_decode_encoded (.seImm _ _) (encXNN_of_family hf) h
  · exact encode_of_decode_encoded (.sneImm _ _) (encXNN_of_family hf) h
  · exact encode_of_decodeXY0 hf (fun _ _ => rfl) ((decode_of_family_five hf).symm.trans h)
  · exact encode_of_decode_encoded (.ldImm _ _) (encXNN_of_family hf) h
  · exact encode_of_decode_encoded (.addImm _ _) (encXNN_of_family hf) h
  · exact absurd hf h8
  · exact encode_of_decodeXY0 hf (fun _ _ => rfl) ((decode_of_family_nine hf).symm.trans h)
  · exact encode_of_decode_encoded (.ldI _) (encNNN_of_family hf) h
  · exact encode_of_decode_encoded (.jpV0 _) (encNNN_of_family hf) h
  · exact encode_of_decode_encoded (.rnd _ _) (encXNN_of_family hf) h
  · exact encode_of_decode_encoded (.drw _ _ _) (encXYN_of_nibbleN hf rfl) h
  · exact encode_of_decodeE hf ((decode_of_family_E hf).symm.trans h)
  · exact encode_of_decodeF hf ((decode_of_family_F hf).symm.trans h)

/-- Settles O3: a word is put together again from its fields, family by family. -/
theorem encodeOfDecodeIsTheWord : Obligations.EncodeOfDecodeIsTheWord := by
  unfold Obligations.EncodeOfDecodeIsTheWord
  exact fun _ _ => encode_of_decode

/-! ### The opcode table -/

/-- The word of every instruction fits a row of its mnemonic (R45, R46). -/
theorem encode_fits_row (i : Instr) : Laws.EncodingFitsRow.Statement i := by
  cases i with
  | cls => exact Laws.EncodingFitsRow.cls
  | ret => exact Laws.EncodingFitsRow.ret
  | jp nnn => exact Laws.EncodingFitsRow.jp nnn
  | call nnn => exact Laws.EncodingFitsRow.call nnn
  | seImm x nn => exact Laws.EncodingFitsRow.seImm x nn
  | sneImm x nn => exact Laws.EncodingFitsRow.sneImm x nn
  | seReg x y => exact Laws.EncodingFitsRow.seReg x y
  | ldImm x nn => exact Laws.EncodingFitsRow.ldImm x nn
  | addImm x nn => exact Laws.EncodingFitsRow.addImm x nn
  | ldReg x y => exact Laws.EncodingFitsRow.ldReg x y
  | orReg x y => exact Laws.EncodingFitsRow.orReg x y
  | andReg x y => exact Laws.EncodingFitsRow.andReg x y
  | xorReg x y => exact Laws.EncodingFitsRow.xorReg x y
  | addReg x y => exact Laws.EncodingFitsRow.addReg x y
  | sub x y => exact Laws.EncodingFitsRow.sub x y
  | shr x => exact Laws.EncodingFitsRow.shr x
  | subn x y => exact Laws.EncodingFitsRow.subn x y
  | shl x => exact Laws.EncodingFitsRow.shl x
  | sneReg x y => exact Laws.EncodingFitsRow.sneReg x y
  | ldI nnn => exact Laws.EncodingFitsRow.ldI nnn
  | jpV0 nnn => exact Laws.EncodingFitsRow.jpV0 nnn
  | rnd x nn => exact Laws.EncodingFitsRow.rnd x nn
  | drw x y n => exact Laws.EncodingFitsRow.drw x y n
  | skp x => exact Laws.EncodingFitsRow.skp x
  | sknp x => exact Laws.EncodingFitsRow.sknp x
  | ldVxDt x => exact Laws.EncodingFitsRow.ldVxDt x
  | ldVxK x => exact Laws.EncodingFitsRow.ldVxK x
  | ldDtVx x => exact Laws.EncodingFitsRow.ldDtVx x
  | ldStVx x => exact Laws.EncodingFitsRow.ldStVx x
  | addIVx x => exact Laws.EncodingFitsRow.addIVx x
  | ldFVx x => exact Laws.EncodingFitsRow.ldFVx x
  | ldBVx x => exact Laws.EncodingFitsRow.ldBVx x
  | ldMemVx x => exact Laws.EncodingFitsRow.ldMemVx x
  | ldVxMem x => exact Laws.EncodingFitsRow.ldVxMem x

theorem Row.fits_iff (r : Row) (w : Word) : r.fits w = true ↔ w &&& r.mask = r.pattern := by simp [Row.fits]

theorem family_and (v w : Word) : family (v &&& w) = family v &&& family w := BitVec.extractLsb'_and

theorem nibbleN_and (v w : Word) : nibbleN (v &&& w) = nibbleN v &&& nibbleN w := BitVec.extractLsb'_and

theorem fieldNN_and (v w : Word) : fieldNN (v &&& w) = fieldNN v &&& fieldNN w := BitVec.extractLsb'_and

/-- A row of family 8 looks at no `Y`, and every row fixes the family (R46). -/
theorem row_mask_clearY : ∀ r ∈ opcodeTable,
    family r.mask = 0xF#4 ∧ (family r.pattern = 0x8#4 → 0xFF0F#16 &&& r.mask = r.mask) := by decide

theorem Row.family_of_fits {r : Row} {w : Word} (hr : r ∈ opcodeTable) (h : r.fits w = true) :
    family w = family r.pattern := by
  rw [← (r.fits_iff w).1 h, family_and, (row_mask_clearY r hr).1]
  exact BitVec.and_allOnes.symm

/-- A row does not see the nibble that the word's instruction ignores. -/
theorem Row.fits_of_fits_clearIgnored {r : Row} {w : Word} (hr : r ∈ opcodeTable)
    (h : r.fits (clearIgnored w) = true) : r.fits w = true := by
  by_cases hf : family w = 0x8#4
  · have h8 : family r.pattern = 0x8#4 := by
      rw [← Row.family_of_fits hr h, clearIgnored_of_family_eight hf, family_encXYN]
    unfold clearIgnored at h
    split at h
    · rwa [Row.fits_iff, BitVec.and_assoc, (row_mask_clearY r hr).2 h8, ← Row.fits_iff] at h
    · exact h
  · rwa [clearIgnored_of_family_ne hf] at h

/-- A word that decodes fits a row of its instruction's mnemonic. -/
theorem decoded_fits_row {w : Word} {i : Instr} (h : decode w = .ok i) :
    ∃ r ∈ opcodeTable, r.mnemonic = i.mnemonic ∧ r.fits w = true := by
  obtain ⟨r, hr, hm, hfit⟩ := encode_fits_row i
  rw [encode_of_decode h] at hfit
  exact ⟨r, hr, hm, Row.fits_of_fits_clearIgnored hr hfit⟩

/-- The kinds of rows: those that fix the whole word, the family alone, the family and `N`, or the family and `NN`, each
with the values they fix (R46). -/
theorem row_kinds : ∀ r ∈ opcodeTable,
    (r.mask = 0xFFFF#16 ∧ r.pattern ∈ [0x00E0#16, 0x00EE#16]) ∨
    family r.pattern ∈ [0x1#4, 0x2#4, 0x3#4, 0x4#4, 0x6#4, 0x7#4, 0xA#4, 0xB#4, 0xC#4, 0xD#4] ∨
    (nibbleN r.mask = 0xF#4 ∧ family r.pattern ∈ [0x5#4, 0x9#4] ∧ nibbleN r.pattern = 0x0#4) ∨
    (nibbleN r.mask = 0xF#4 ∧ family r.pattern = 0x8#4 ∧
      nibbleN r.pattern ∈ [0x0#4, 0x1#4, 0x2#4, 0x3#4, 0x4#4, 0x5#4, 0x6#4, 0x7#4, 0xE#4]) ∨
    (fieldNN r.mask = 0xFF#8 ∧ family r.pattern = 0xE#4 ∧ fieldNN r.pattern ∈ [0x9E#8, 0xA1#8]) ∨
    (fieldNN r.mask = 0xFF#8 ∧ family r.pattern = 0xF#4 ∧ fieldNN r.pattern ∈
      [0x07#8, 0x0A#8, 0x15#8, 0x18#8, 0x1E#8, 0x29#8, 0x33#8, 0x55#8, 0x65#8]) := by decide

theorem decodes_of_family {w : Word}
    (hf : family w ∈ [0x1#4, 0x2#4, 0x3#4, 0x4#4, 0x6#4, 0x7#4, 0xA#4, 0xB#4, 0xC#4, 0xD#4]) :
    ∃ i, decode w = .ok i := by
  simp only [List.mem_cons, List.not_mem_nil, or_false] at hf
  rcases hf with h | h | h | h | h | h | h | h | h | h <;> simp [decode, h]

theorem decodes_of_skipReg {w : Word} (hf : family w ∈ [0x5#4, 0x9#4]) (hn : nibbleN w = 0x0#4) :
    ∃ i, decode w = .ok i := by
  simp only [List.mem_cons, List.not_mem_nil, or_false] at hf
  rcases hf with h | h
  · rw [decode_of_family_five h]; exact ⟨_, if_pos hn⟩
  · rw [decode_of_family_nine h]; exact ⟨_, if_pos hn⟩

theorem decodes_of_family_eight {w : Word} (hf : family w = 0x8#4)
    (hn : nibbleN w ∈ [0x0#4, 0x1#4, 0x2#4, 0x3#4, 0x4#4, 0x5#4, 0x6#4, 0x7#4, 0xE#4]) : ∃ i, decode w = .ok i := by
  rw [decode_of_family_eight hf]
  simp only [List.mem_cons, List.not_mem_nil, or_false] at hn
  rcases hn with h | h | h | h | h | h | h | h | h <;> simp [decodeEight, h]

theorem decodes_of_family_E {w : Word} (hf : family w = 0xE#4) (hnn : fieldNN w ∈ [0x9E#8, 0xA1#8]) :
    ∃ i, decode w = .ok i := by
  rw [decode_of_family_E hf]
  simp only [List.mem_cons, List.not_mem_nil, or_false] at hnn
  rcases hnn with h | h <;> simp [decodeE, h]

theorem decodes_of_family_F {w : Word} (hf : family w = 0xF#4)
    (hnn : fieldNN w ∈ [0x07#8, 0x0A#8, 0x15#8, 0x18#8, 0x1E#8, 0x29#8, 0x33#8, 0x55#8, 0x65#8]) :
    ∃ i, decode w = .ok i := by
  rw [decode_of_family_F hf]
  simp only [List.mem_cons, List.not_mem_nil, or_false] at hnn
  rcases hnn with h | h | h | h | h | h | h | h | h <;> simp [decodeF, h]

/-- A word that fits a row decodes: its family and selecting field are the row's. -/
theorem decodes_of_fits_row {w : Word} {r : Row} (hr : r ∈ opcodeTable) (h : r.fits w = true) :
    ∃ i, decode w = .ok i := by
  have hF : family w = family r.pattern := Row.family_of_fits hr h
  rw [Row.fits_iff] at h
  have hN (hm : nibbleN r.mask = 0xF#4) : nibbleN w = nibbleN r.pattern := by
    rw [← h, nibbleN_and, hm]; exact BitVec.and_allOnes.symm
  have hNN (hm : fieldNN r.mask = 0xFF#8) : fieldNN w = fieldNN r.pattern := by
    rw [← h, fieldNN_and, hm]; exact BitVec.and_allOnes.symm
  rcases row_kinds r hr with ⟨hm, hp⟩ | hf | ⟨hm, hf, hn⟩ | ⟨hm, hf, hn⟩ | ⟨hm, hf, hnn⟩ | ⟨hm, hf, hnn⟩
  · obtain rfl : w = r.pattern := by rw [← h, hm]; exact BitVec.and_allOnes.symm
    simp only [List.mem_cons, List.not_mem_nil, or_false] at hp
    rcases hp with hp | hp <;> rw [hp] <;> exact ⟨_, rfl⟩
  · exact decodes_of_family (hF ▸ hf)
  · exact decodes_of_skipReg (hF ▸ hf) ((hN hm).trans hn)
  · exact decodes_of_family_eight (hF.trans hf) (hN hm ▸ hn)
  · exact decodes_of_family_E (hF.trans hf) (hNN hm ▸ hnn)
  · exact decodes_of_family_F (hF.trans hf) (hNN hm ▸ hnn)

/-- Two rows of the table that agree where both look are one row. -/
theorem rows_agree : ∀ r ∈ opcodeTable, ∀ r' ∈ opcodeTable,
    r.pattern &&& r'.mask = r'.pattern &&& r.mask → r = r' := by decide

theorem row_unique {w : Word} {r r' : Row} (hr : r ∈ opcodeTable) (hr' : r' ∈ opcodeTable) (h : r.fits w = true)
    (h' : r'.fits w = true) : r = r' := by
  rw [Row.fits_iff] at h h'
  refine rows_agree r hr r' hr' ?_
  rw [← h, ← h', BitVec.and_assoc, BitVec.and_assoc, BitVec.and_comm r.mask]

/-- A word is well formed exactly when it decodes (R45). -/
theorem wordWellFormed_iff (w : Word) : wordWellFormed w = true ↔ ∃ i, decode w = .ok i := by
  rw [wordWellFormed, List.any_eq_true]
  constructor
  · rintro ⟨r, hr, h⟩
    exact decodes_of_fits_row hr h
  · rintro ⟨i, h⟩
    obtain ⟨r, hr, -, hfit⟩ := decoded_fits_row h
    exact ⟨r, hr, hfit⟩

/-- Settles O4: a word decodes exactly when a row fits it, the row bears the instruction's mnemonic, and rows that fit
one word are one row. -/
theorem decodeFollowsTheOpcodeTable : Obligations.DecodeFollowsTheOpcodeTable := by
  unfold Obligations.DecodeFollowsTheOpcodeTable
  refine ⟨fun w i => decoded_fits_row, fun w => ?_, fun w r r' => row_unique⟩
  rw [← Bool.not_eq_true, wordWellFormed_iff]
  rcases Machine.decode_cases w with ⟨i, h⟩ | h <;> simp [h]

end Sys2Proof
end

section
/-! PROOFS. The invariant of every reachable state: memory in canonical form, PC and stack within R18's bounds, RUN in agreement with the report (10_state.md R18, 60_exceptions.md R89, R102). -/

namespace Sys2Proof.Machine

/-! ### Answers that meet the invariant -/

/-- The part of the invariant that an instruction which completes keeps until its end: it runs, memory is canonical and
the occupied stack slots are in bounds. `PC` and the report are written by `finish`. -/
structure State.Sound (s : State) : Prop where
  memWf : s.mem.wf = true
  stackBound : ∀ k : Fin 16, k.val < s.sp.val → (s.stack.get k).toNat ≤ 0xFFE
  running : s.Running

/-- The answer is a next state that meets the invariant. -/
def AnswersInv (r : Result) : Prop := ∃ t, r = .next t ∧ t.Inv

theorem State.Inv.sound {s : State} (h : s.Inv) (hr : s.Running) : s.Sound := ⟨h.memWf, h.stackBound, hr⟩

/-- A state that runs and reports no fault agrees with itself (R26, R89). -/
theorem report_of_running {s : State} (hr : s.Running) (hl : ∀ f, s.lastStep ≠ some (.faulted f)) (f : CoreFault) :
    s.run = .faulted f ↔ s.lastStep = some (.faulted f) :=
  iff_of_false hr.not_faultedWith (hl f)

theorem State.Sound.finish {s : State} (h : s.Sound) {target : Word} (ht : target.toNat ≤ 0x10FE) :
    AnswersInv (finish s target) := by
  obtain ⟨hmem, hstack, hr⟩ := h
  exact ⟨_, finish_eq s target, hmem, ht, hstack, report_of_running hr nofun⟩

/-- From the last `PC` a fetch takes the next address is in bounds. -/
theorem State.Sound.finishNext {s : State} (h : s.Sound) (hpc : s.pc.toNat + 1 ≤ 0xFFF) : AnswersInv (finishNext s) :=
  h.finish (by bv_omega)

theorem State.Sound.finishSkip {s : State} (h : s.Sound) (hpc : s.pc.toNat + 1 ≤ 0xFFF) (cond : Bool) :
    AnswersInv (finishSkip s cond) := by
  refine h.finish ?_
  split <;> bv_omega

theorem State.Inv.recordFault {s : State} (h : s.Inv) (f : CoreFault) : (s.recordFault f).Inv :=
  ⟨h.memWf, h.pcBound, h.stackBound, fun g => by simp [State.recordFault]⟩

theorem State.Inv.raise {s : State} (h : s.Inv) (f : CoreFault) : AnswersInv (raise s f) :=
  ⟨_, raise_eq s f, h.recordFault f⟩

theorem State.Inv.block {s : State} (h : s.Inv) (hr : s.Running) : AnswersInv (block s) :=
  ⟨_, block_eq s, h.memWf, h.pcBound, h.stackBound, report_of_running hr nofun⟩

/-- A range-checked instruction may use that its bytes are in memory. -/
theorem State.Inv.withBytesAtI {s : State} (h : s.Inv) {count : Nat} {body : Result}
    (hb : (∀ k, k < count → effAddr s k ≤ 0xFFF) → AnswersInv body) : AnswersInv (withBytesAtI s count body) := by
  rcases withBytesAtI_cases s count body with ⟨-, -, e⟩ | ⟨hin, e⟩ <;> rw [e]
  · exact h.raise _
  · exact hb hin

theorem State.Inv.withKey {s : State} (h : s.Inv) {b : Byte} {body : KeyIx → Result}
    (hb : ∀ k, AnswersInv (body k)) : AnswersInv (withKey s b body) := by
  rcases withKey_cases s b body with ⟨-, e⟩ | ⟨_, e⟩ <;> rw [e]
  · exact h.raise _
  · exact hb _

/-! ### The parts an instruction writes -/

/-- A nonempty run of bytes stored from I on, its last within memory, keeps memory canonical (R34, R73). -/
theorem State.Sound.writeAtI {s : State} (h : s.Sound) {vs : List Byte} {n : Nat} (hlen : vs.length = n + 1)
    (hin : effAddr s n ≤ 0xFFF) : State.Sound { s with mem := s.mem.writeList (effAddr s 0) vs } := by
  refine ⟨Memory.wf_writeList ?_ h.memWf, h.stackBound, h.running⟩
  rw [hlen, Config.memSize_eq]
  unfold effAddr at hin ⊢
  omega

/-- A pushed address that a fetch has taken is in bounds, and the slots below are as before (R18, R20). -/
theorem State.Sound.push {s : State} (h : s.Sound) {r : Word} (hr : r.toNat ≤ 0xFFE) (hroom : s.sp.val < 16) :
    State.Sound { s with
      stack := s.stack.set s.sp.val r hroom, sp := ⟨s.sp.val + 1, Nat.succ_lt_succ hroom⟩ } := by
  refine ⟨h.memWf, fun k hk => ?_, h.running⟩
  rw [stack_set_get]
  split
  · exact hr
  · exact h.stackBound k (Nat.lt_of_le_of_ne (Nat.le_of_lt_succ hk) ‹_›)

/-- A pop gives an occupied slot's address and leaves the slots below (R18, R21). -/
theorem State.Inv.pop {s t : State} {r : Word} (h : s.Inv) (hp : s.pop = some (r, t)) :
    r.toNat ≤ 0xFFE ∧ (s.Running → t.Sound) := by
  rcases s.pop_cases with ⟨-, e⟩ | ⟨n, hn, hsp, e⟩ <;> rw [e] at hp
  · cases hp
  · cases hp
    exact ⟨h.stackBound ⟨n, hn⟩ (by simp [hsp]), fun hr =>
      ⟨h.memWf, fun k hk => h.stackBound k (hk.trans (by simp [hsp])), hr⟩⟩

/-! ### Instructions and steps, under any parameters -/

/-- A 12-bit address is within the bound of `PC`. -/
theorem zextAddr_le (nnn : Addr12) : (zextAddr nnn).toNat ≤ 0x10FE := by
  have h := nnn.isLt
  rw [zextAddr_toNat]
  omega

theorem drawWith_answersInv (p : Config.Params) (x y : RegIx) (n : Nibble) {s : State} (h : s.Inv) (hr : s.Running)
    (hpc : s.pc.toNat + 1 ≤ 0xFFF) : AnswersInv (drawWith p x y n s) :=
  h.withBytesAtI fun _ => State.Sound.finishNext ⟨h.memWf, h.stackBound, hr⟩ hpc

theorem addIWith_answersInv (p : Config.Params) (x : RegIx) {s : State} (h : s.Inv) (hr : s.Running)
    (hpc : s.pc.toNat + 1 ≤ 0xFFF) : AnswersInv (addIWith p x s) := by
  rcases addIWith_cases p x s with ⟨-, -, e⟩ | ⟨v, e⟩ <;> rw [e]
  · exact h.raise _
  · exact State.Sound.finishNext (s := { s with v := v, i := BitVec.ofNat 16 (s.i.toNat + (s.getV x).toNat) })
      ⟨h.memWf, h.stackBound, hr⟩ hpc

/-- Every instruction, run at a `PC` that a fetch takes, keeps the invariant. -/
theorem exec_answersInv (i : Instr) {s : State} (h : s.Inv) (hr : s.Running) (hpc : s.pc.toNat + 1 ≤ 0xFFF) :
    AnswersInv (exec i s) := by
  have hs : s.Sound := h.sound hr
  cases i with
  | ret =>
    simp only [exec, execRet]
    cases e : s.pop with
    | none => exact h.raise _
    | some rt =>
      obtain ⟨hle, ht⟩ := h.pop e
      exact (ht hr).finish (by bv_omega)
  | call nnn =>
    simp only [exec, execCall]
    rcases s.push_cases s.pc with ⟨-, e⟩ | ⟨hroom, e⟩ <;> rw [e]
    · exact h.raise _
    · exact (hs.push (by omega) hroom).finish (zextAddr_le nnn)
  | jp nnn => exact hs.finish (zextAddr_le nnn)
  | jpV0 nnn => exact hs.finish ((indexedTarget_toNat _ nnn).trans_le (indexedTarget_le _ nnn))
  | seImm x nn => exact hs.finishSkip hpc _
  | sneImm x nn => exact hs.finishSkip hpc _
  | seReg x y => exact hs.finishSkip hpc _
  | sneReg x y => exact hs.finishSkip hpc _
  | skp x => exact h.withKey fun k => hs.finishSkip hpc (s.key k)
  | sknp x => exact h.withKey fun k => hs.finishSkip hpc (!s.key k)
  | ldVxK x =>
    simp only [exec, execLdVxK]
    rcases drawKey_cases s s.pressed with ⟨-, e⟩ | ⟨k, -, e⟩ <;> rw [e]
    · exact h.block hr
    · exact State.Sound.finishNext ⟨h.memWf, h.stackBound, hr⟩ hpc
  | addIVx x => exact addIWith_answersInv Config.params x h hr hpc
  | drw x y n => exact drawWith_answersInv Config.params x y n h hr hpc
  | ldBVx x => exact h.withBytesAtI fun hin => (hs.writeAtI rfl (hin 2 (by decide))).finishNext hpc
  | ldMemVx x =>
    refine h.withBytesAtI fun hin => State.Sound.finishNext ?_ hpc
    exact hs.writeAtI (storedRegs_length s x) (hin x.val (Nat.lt_succ_self _))
  | ldVxMem x =>
    refine h.withBytesAtI fun _ => ?_
    obtain ⟨v, e⟩ := loadRegs_rest s x
    rw [e]
    exact State.Sound.finishNext ⟨h.memWf, h.stackBound, hr⟩ hpc
  | _ => exact State.Sound.finishNext ⟨h.memWf, h.stackBound, hr⟩ hpc

theorem execWith_answersInv (p : Config.Params) (i : Instr) {s : State} (h : s.Inv) (hr : s.Running)
    (hpc : s.pc.toNat + 1 ≤ 0xFFF) : AnswersInv (execWith p i s) := by
  rcases execWith_cases p i s with e | ⟨x, y, n, -, e⟩ | ⟨x, -, e⟩ <;> rw [e]
  · exact exec_answersInv i h hr hpc
  · exact drawWith_answersInv p x y n h hr hpc
  · exact addIWith_answersInv p x h hr hpc

/-- The tick writes the timers and adds an event to a step that advances: it keeps the invariant (R97). -/
theorem State.Inv.tick {s : State} {es : List Event} (h : s.Inv) (ha : s.lastStep = some (.advanced es)) :
    (tick s).Inv := by
  obtain ⟨hmem, hpc, hstack, hreport⟩ := h
  refine ⟨by rwa [tick_mem], by rwa [tick_pc], by rwa [tick_sp, tick_stack], fun f => ?_⟩
  rw [tick_run, hreport, ha, tick_lastStep ha]
  simp

theorem State.Inv.afterInstruction {s : State} (h : s.Inv) : (afterInstruction s).Inv := by
  unfold Machine.afterInstruction
  split
  · exact h.tick ‹_›
  · exact h

/-- The report of an unknown word, from the last `PC` a fetch takes, keeps the invariant (R47). -/
theorem State.Inv.unknownOpcode {s : State} (h : s.Inv) (hr : s.Running) (hpc : s.pc.toNat + 1 ≤ 0xFFF) (w : Word) :
    (unknownOpcode s w).Inv :=
  ⟨h.memWf, show (s.pc + 2#16).toNat ≤ 0x10FE by bv_omega, h.stackBound, report_of_running hr nofun⟩

/-- A fetch that answers a word had both its bytes in memory (R44). -/
theorem pc_of_fetch {s : State} {w : Word} (h : fetch s = .ok w) : s.pc.toNat + 1 ≤ 0xFFF := by
  rcases fetch_cases s with ⟨-, e⟩ | ⟨hin, -⟩
  · exact nomatch e.symm.trans h
  · exact hin

theorem stepWith_inv {p : Config.Params} {s t : State} (hs : s.Inv) (h : stepWith p s = .next t) : t.Inv := by
  obtain ⟨hr, ⟨-, rfl⟩ | ⟨i, u, hi, hu, rfl⟩ | ⟨w, hw, -, rfl⟩⟩ := stepWith_cases h
  · exact hs.recordFault _
  · obtain ⟨u', hu', hinv⟩ := execWith_answersInv p i hs hr hi.1
    obtain rfl := Host.Outcome.next.inj (hu.symm.trans hu')
    exact hinv.afterInstruction
  · exact (hs.unknownOpcode hr (pc_of_fetch hw) w).tick rfl

/-- Settles O44: the machine is the configured one at the defaults, and under any parameters each end of a step keeps
the invariant. -/
theorem stepKeepsTheInvariant : Obligations.StepKeepsTheInvariant := by
  unfold Obligations.StepKeepsTheInvariant
  exact ⟨fun _ _ hs h => stepWith_inv hs (stepWith_default ▸ h), fun _ _ _ => stepWith_inv⟩

/-! ### Construction, reset and the host's moves -/

theorem constructed_inv (p : Config.Params) : (State.constructed p).Inv :=
  ⟨constructed_wf p, show State.reset.pc.toNat ≤ 0x10FE by decide,
    fun k hk => absurd hk (Nat.not_lt_zero _), report_of_running rfl nofun⟩

/-- Settles O43: the reset state is the constructed one at the default parameters. -/
theorem resetStateMeetsTheInvariant : Obligations.ResetStateMeetsTheInvariant := by
  unfold Obligations.ResetStateMeetsTheInvariant
  rw [← constructed_default]
  exact constructed_inv Config.params

/-- A ROM that fits, written from 0x200, stays within memory and keeps it canonical (R108). -/
theorem Memory.wf_writeRom {m : Memory} (h : m.wf = true) {rom : List Byte} (hfits : rom.length ≤ 3584) :
    (m.writeList Config.programBase rom).wf = true :=
  Memory.wf_writeList (by rw [Config.programBase_eq, Config.memSize_eq]; omega) h

theorem hostLoad_inv {rom : List Byte} {s t : State} (hs : s.Inv) (h : hostLoad rom s = .ok t) : t.Inv := by
  rcases hostLoad_cases rom s with ⟨hfits, e⟩ | ⟨-, e⟩
  · obtain rfl := Except.ok.inj (e.symm.trans h)
    exact ⟨Memory.wf_writeRom hs.memWf hfits, hs.pcBound, hs.stackBound, hs.report⟩
  · exact nomatch e.symm.trans h

theorem hostResetWith_inv {p : Config.Params} {rom : List Byte} {s t : State} (h : hostResetWith p rom s = .ok t) :
    t.Inv := by
  have hc := constructed_inv p
  rcases hostResetWith_cases p rom s with ⟨hfits, e⟩ | ⟨-, e⟩
  · obtain rfl := Except.ok.inj (e.symm.trans h)
    exact ⟨Memory.wf_writeRom hc.memWf hfits, hc.pcBound, hc.stackBound, hc.report⟩
  · exact nomatch e.symm.trans h

theorem hostAct_inv (a : HostAction) {s : State} (hs : s.Inv) : (hostAct a s).Inv := by
  cases a with
  | writeKeys keys => exact ⟨hs.memWf, hs.pcBound, hs.stackBound, hs.report⟩
  | readFrame => exact hs
  | consumeFrame => exact ⟨hs.memWf, hs.pcBound, hs.stackBound, hs.report⟩
  | reset rom =>
    cases e : hostReset rom s with
    | ok t => simpa only [hostAct, e] using hostResetWith_inv e
    | error r => simpa only [hostAct, e] using hs

/-- Settles O45, move by move. -/
theorem hostMovesKeepTheInvariant : Obligations.HostMovesKeepTheInvariant := by
  unfold Obligations.HostMovesKeepTheInvariant
  exact ⟨fun a _ => hostAct_inv a, fun _ _ _ => hostLoad_inv,
    fun p => ⟨constructed_inv p, fun _ _ _ => hostResetWith_inv⟩⟩

/-- A move of either agent keeps the invariant. -/
theorem Move.next_inv {m : Move} {s t : State} (hs : s.Inv) (h : m.next s = some t) : t.Inv := by
  cases m with
  | step =>
    simp only [Move.next] at h
    split at h
    · rename_i e
      exact Option.some.inj h ▸ stepKeepsTheInvariant.1 _ _ hs e
    · cases h
    · cases h
  | host a => exact Option.some.inj h ▸ hostAct_inv a hs

/-- Settles O46, by induction on the run: a load of the reset state meets the invariant and every move keeps it. -/
theorem reachableStatesMeetTheInvariant : Obligations.ReachableStatesMeetTheInvariant := by
  unfold Obligations.ReachableStatesMeetTheInvariant
  intro s h
  induction h with
  | load rom s h => exact hostLoad_inv resetStateMeetsTheInvariant h
  | move m s t _ h ih => exact Move.next_inv ih h

/-! ### What the invariant gives -/

/-- Settles O47: the bounds leave room for the additions within 16 bits. -/
theorem pcArithmeticIsExactUnderTheInvariant : Obligations.PcArithmeticIsExactUnderTheInvariant := by
  unfold Obligations.PcArithmeticIsExactUnderTheInvariant
  refine fun s hs hpc => ⟨by bv_omega, by bv_omega, fun r u hp => ?_⟩
  obtain ⟨hle, -⟩ := hs.pop hp
  exact ⟨by bv_omega, by omega⟩

/-- A cell of a strictly rising list is the one found at its address. -/
theorem Memory.find_of_mem {m : Memory} (h : m.Pairwise (fun c d => c.1 < d.1)) {a : Nat} {v : Byte}
    (hm : (a, v) ∈ m) : m.find a = some v := by
  induction m with
  | nil => cases hm
  | cons c rest ih =>
    obtain ⟨hlt, hrest⟩ := List.pairwise_cons.1 h
    rcases List.mem_cons.1 hm with rfl | hm
    · simp [Memory.find]
    · have hne : a ≠ c.1 := (hlt _ hm).ne'
      simp [Memory.find, hne, ih hrest hm]

theorem Memory.mem_of_find {m : Memory} {a : Nat} {v : Byte} (h : m.find a = some v) : (a, v) ∈ m := by
  induction m with
  | nil => cases h
  | cons c rest ih =>
    simp only [Memory.find] at h
    split at h
    · cases h; subst_vars; exact List.mem_cons_self
    · exact List.mem_cons_of_mem _ (ih h)

/-- The cells of a canonical memory are the addresses of the space that read as another byte than reset leaves. -/
theorem Memory.Canonical.mem_iff {m : Memory} (h : m.Canonical) (a : Nat) (v : Byte) :
    (a, v) ∈ m ↔ a < Config.memSize ∧ m.read a = v ∧ v ≠ Memory.unlisted a := by
  obtain ⟨hrise, hcell⟩ := h
  constructor
  · intro hm
    obtain ⟨ha, hv⟩ := hcell _ hm
    exact ⟨ha, by rw [Memory.read, Memory.find_of_mem hrise hm]; rfl, hv⟩
  · rintro ⟨-, hread, hv⟩
    unfold Memory.read at hread
    cases e : m.find a with
    | none => rw [e] at hread; exact absurd hread.symm hv
    | some w => rw [e] at hread; exact hread ▸ Memory.mem_of_find e

theorem Memory.Canonical.nodup {m : Memory} (h : m.Canonical) : m.Nodup :=
  h.1.imp fun hlt heq => hlt.ne (congrArg Prod.fst heq)

/-- Settles O48: what canonical memories read gives their cells, and a strictly rising list is known by its cells. -/
theorem canonicalMemoriesThatReadAlikeAreEqual : Obligations.CanonicalMemoriesThatReadAlikeAreEqual := by
  unfold Obligations.CanonicalMemoriesThatReadAlikeAreEqual
  intro m m' h h' hread
  rw [Memory.wf_iff] at h h'
  have hmem : ∀ c, c ∈ m ↔ c ∈ m' := fun (a, v) => by
    rw [h.mem_iff, h'.mem_iff]
    exact and_congr_right fun ha => by rw [hread a ha]
  exact ((List.perm_ext_iff_of_nodup h.nodup h'.nodup).2 hmem).eq_of_pairwise
    (fun c d _ _ hlt hgt => absurd hlt hgt.asymm) h.1 h'.1

end Sys2Proof.Machine
end

section
/-! PROOFS. Loading a ROM and the host's transactions, the parameters' defaults, and the word placed for the next fetch (60_exceptions.md R102; 70_reset_and_hazards.md R106 to R108; 00_scope.md R8). -/

namespace Sys2Proof.Machine

/-! ### Load and reset -/

/-- Settles O51: a load writes the ROM's bytes from 0x200 on, and reads after those writes give the rest. -/
theorem loaderCopiesTheRom : Obligations.LoaderCopiesTheRom := by
  unfold Obligations.LoaderCopiesTheRom
  refine fun rom s => ⟨fun hfits => ⟨_, hostLoad_of_fits hfits s, fun k hk => ?_, fun a ha => ?_, rfl⟩, fun hlong => ?_⟩
  · rw [List.getD_eq_getElem _ _ hk]
    exact Memory.read_writeList_inside s.mem 0x200 rom k hk
  · exact Memory.read_writeList_outside s.mem 0x200 rom a ha
  · rcases hostLoad_cases rom s with ⟨hfits, -⟩ | ⟨-, e⟩
    · omega
    · exact e

/-- Settles O52: a load and a reset refuse alike, and both write the ROM into the constructed memory. -/
theorem loadOnConstructionIsReset : Obligations.LoadOnConstructionIsReset := by
  unfold Obligations.LoadOnConstructionIsReset
  have hload (p : Config.Params) (rom : List Byte) :
      hostLoad rom (State.constructed p) = hostResetWith p rom (State.constructed p) := rfl
  refine ⟨hload, fun rom => ?_⟩
  rw [← constructed_default]
  exact hload Config.params rom

theorem constructed_pixel (p : Config.Params) (q : Nat) : (State.constructed p).pixel q = false := pixel_blankPlane q

theorem constructed_key (p : Config.Params) (k : KeyIx) : (State.constructed p).key k = false := by
  simp [State.key, State.constructed, State.reset, Vector.get_eq_getElem]

/-- Settles O50: a reset that succeeds leaves the display and the keypad of the constructed state. -/
theorem resetClearsDisplayAndKeypad : Obligations.ResetClearsDisplayAndKeypad := by
  unfold Obligations.ResetClearsDisplayAndKeypad
  intro rom s t h
  rcases hostResetWith_cases Config.params rom s with ⟨-, e⟩ | ⟨-, e⟩
  · obtain rfl := Except.ok.inj (e.symm.trans h)
    exact ⟨constructed_pixel Config.params, rfl, constructed_key Config.params⟩
  · exact nomatch e.symm.trans h

/-- Settles O53: each transaction is one field's update, or none. -/
theorem hostTransactionsTouchOnlyTheirOwn : Obligations.HostTransactionsTouchOnlyTheirOwn := by
  unfold Obligations.HostTransactionsTouchOnlyTheirOwn
  exact fun s => ⟨fun keys => rfl, ⟨rfl, fun p => rfl, rfl⟩, rfl⟩

/-! ### The defaults -/

/-- Settles O54: reset lists no byte over the font, so the 80 bytes of its table are what memory reads as. -/
theorem parametersHaveTheDefaults : Obligations.ParametersHaveTheDefaults := by
  unfold Obligations.ParametersHaveTheDefaults
  refine ⟨rfl, rfl, rfl, by decide, fun d row hd => ?_⟩
  revert row
  revert d
  decide

/-! ### The word placed for the next fetch -/

/-- A table word that decodes is, as 16 bits, one the decoder takes. -/
theorem decode_of_decodeTableWord {nbits w : Nat} {i : Instr} (h : decodeTableWord nbits w = some i) :
    decode (BitVec.ofNat 16 (w % 2 ^ nbits)) = .ok i := by
  have hd := decodeBytes_wordBytes (BitVec.ofNat 16 (w % 2 ^ nbits)) []
  rw [List.append_nil] at hd
  rw [decodeTableWord, hd] at h
  cases e : decode (BitVec.ofNat 16 (w % 2 ^ nbits)) with
  | ok j => rw [e] at h; simpa [Except.map] using h
  | error r => rw [e] at h; simp [Except.map] at h

@[simp] theorem State.withFetchWord_pc (s : State) (nbits w : Nat) : (s.withFetchWord nbits w).pc = s.pc := by
  unfold State.withFetchWord; split <;> rfl
@[simp] theorem State.withFetchWord_run (s : State) (nbits w : Nat) : (s.withFetchWord nbits w).run = s.run := by
  unfold State.withFetchWord; split <;> rfl

/-- A word placed at `PC` in memory is the one fetched there, high byte first (R35, R44). -/
theorem withFetchWord_word {s : State} (hpc : s.pc.toNat + 1 ≤ 0xFFF) (nbits w : Nat) :
    joinBytes ((s.withFetchWord nbits w).mem.read s.pc.toNat) ((s.withFetchWord nbits w).mem.read (s.pc.toNat + 1)) =
      BitVec.ofNat 16 (w % 2 ^ nbits) := by
  rw [State.withFetchWord, if_neg (by omega)]
  have hbyte := Memory.read_writeList_inside s.mem s.pc.toNat (wordBytes (BitVec.ofNat 16 (w % 2 ^ nbits)))
  exact (congrArg₂ joinBytes (hbyte 0 Nat.two_pos) (hbyte 1 Nat.one_lt_two)).trans (joinBytes_wordBytes _)

/-- Placing a word leaves all but its two bytes. -/
theorem withFetchWord_read_other (s : State) (nbits w : Nat) {a : Nat} (h : a ≠ s.pc.toNat)
    (h' : a ≠ s.pc.toNat + 1) : (s.withFetchWord nbits w).mem.read a = s.mem.read a := by
  unfold State.withFetchWord
  split
  · rfl
  · refine Memory.read_writeList_outside _ _ _ _ ?_
    simp only [wordBytes, List.length_cons, List.length_nil]
    omega

/-- Settles O55: the placed word is fetched, and the step runs what it decodes to. -/
theorem fetchWordIsRunNext : Obligations.FetchWordIsRunNext := by
  unfold Obligations.FetchWordIsRunNext
  intro s w i hr hpc hd
  have hnext : (s.withFetchWord 16 w).NextIs i := by
    rw [State.NextIs, State.withFetchWord_pc, withFetchWord_word hpc]
    exact ⟨hpc, decode_of_decodeTableWord hd⟩
  exact ⟨hnext, step_exec ((State.withFetchWord_run s 16 w).trans hr) hnext, fun a => withFetchWord_read_other s 16 w⟩

end Sys2Proof.Machine
end

section
/-! PROOFS. What each instruction and each step may write: the frame table, and the writers of KEY, memory, the registers, I and the stack (10_state.md R14 to R23, 20_memory.md R37). -/

namespace Sys2Proof.Machine

/-! ### Answers that keep a frame -/

/-- The answer is a next state in which a fault has been recorded and nothing else changed, or that keeps the frame. -/
def KeepsFrame (w : Touches) (s : State) (r : Result) : Prop :=
  ∃ t, r = .next t ∧ ((∃ f, t = s.recordFault f) ∨ Untouched w s t)

theorem KeepsFrame.raise (w : Touches) (s : State) (f : CoreFault) : KeepsFrame w s (raise s f) :=
  ⟨_, raise_eq s f, .inl ⟨f, rfl⟩⟩

/-- A completed instruction writes `PC` and the report, which no frame counts. -/
theorem KeepsFrame.finish {w : Touches} {s t : State} (target : Word) (h : Untouched w s t) :
    KeepsFrame w s (finish t target) := ⟨_, finish_eq t target, .inr h⟩

theorem KeepsFrame.withBytesAtI {w : Touches} {s : State} {body : Result} (count : Nat) (h : KeepsFrame w s body) :
    KeepsFrame w s (withBytesAtI s count body) := by
  rcases withBytesAtI_cases s count body with ⟨-, -, e⟩ | ⟨-, e⟩ <;> rw [e]
  · exact .raise w s _
  · exact h

theorem KeepsFrame.withKey {w : Touches} {s : State} {body : KeyIx → Result} (b : Byte)
    (h : ∀ k, KeepsFrame w s (body k)) : KeepsFrame w s (withKey s b body) := by
  rcases withKey_cases s b body with ⟨-, e⟩ | ⟨_, e⟩ <;> rw [e]
  · exact .raise w s _
  · exact h _

theorem Untouched.refl (w : Touches) (s : State) : Untouched w s s := by simp [Untouched]

theorem KeepsFrame.finishSkip (w : Touches) (s : State) (cond : Bool) : KeepsFrame w s (finishSkip s cond) :=
  .finish _ (.refl w s)

/-! ### The frame table -/

/-- Every instruction writes at most what its row of the frame table lists, or records a fault (R14, R16, R37). -/
theorem exec_keepsFrame (i : Instr) (s : State) : KeepsFrame (touches i s) s (exec i s) := by
  cases i with
  | cls => exact .finish _ (Untouched.refl {} _).of_display
  | ret =>
    simp only [exec, execRet]
    rcases s.pop_cases with ⟨-, e⟩ | ⟨n, hn, -, e⟩ <;> rw [e]
    · exact .raise _ s _
    · exact .finish _ (untouched_of_stackWrite ..)
  | call nnn =>
    simp only [exec, execCall]
    rcases s.push_cases s.pc with ⟨-, e⟩ | ⟨h, e⟩ <;> rw [e]
    · exact .raise _ s _
    · exact .finish _ (untouched_of_stackWrite ..)
  | jp nnn | jpV0 nnn => exact .finish _ (.refl _ s)
  | seImm x nn | sneImm x nn | seReg x nn | sneReg x nn => exact .finishSkip _ s _
  | skp x => exact .withKey (s.getV x) fun k => .finishSkip _ s (s.key k)
  | sknp x => exact .withKey (s.getV x) fun k => .finishSkip _ s (!s.key k)
  | ldImm x b | addImm x b | ldReg x b | orReg x b | andReg x b | xorReg x b =>
    exact .finish _ (Untouched.refl {} _).of_setV
  | ldVxDt x => exact .finish _ (Untouched.refl {} _).of_setV
  | addReg x y | sub x y | subn x y => exact .finish _ (Untouched.refl {} _).of_setV.of_setV
  | shr x | shl x => exact .finish _ (Untouched.refl {} _).of_setV.of_setV
  | rnd x nn => exact .finish _ (Untouched.refl {} _).of_setV.of_draws
  | ldVxK x =>
    simp only [exec, execLdVxK]
    rcases drawKey_cases s s.pressed with ⟨-, e⟩ | ⟨k, -, e⟩ <;> rw [e]
    · exact ⟨_, block_eq s, .inr (Untouched.refl _ s)⟩
    · exact .finish _ (Untouched.refl {} _).of_setV.of_draws
  | ldI nnn => exact .finish _ (Untouched.refl {} _).of_i
  | ldFVx x => exact .finish _ (Untouched.refl {} _).of_i
  | addIVx x =>
    rcases Nat.lt_or_ge 0xFFFF (s.i.toNat + (s.getV x).toNat) with hgt | hle
    · exact ⟨_, addIWith_of_overflow rfl hgt, .inl ⟨_, rfl⟩⟩
    · obtain ⟨t, ht, -, -, -, hframe⟩ := addIWith_advances (p := Config.params) (.inr hle)
      exact ⟨t, ht, .inr hframe⟩
  | drw x y n => exact .withBytesAtI _ (.finish _ (Untouched.refl {} _).of_setV.of_display)
  | ldDtVx x => exact .finish _ (Untouched.refl {} _).of_dt
  | ldStVx x => exact .finish _ (Untouched.refl {} _).of_st
  | ldBVx x =>
    exact .withBytesAtI _ (.finish _ ((Untouched.refl {} _).of_mem fun _ => read_writeList_at_i_other s _))
  | ldMemVx x =>
    exact .withBytesAtI _ (.finish _ ((Untouched.refl {} _).of_mem fun _ ha =>
      read_writeList_at_i_other s _ (by rwa [storedRegs_length])))
  | ldVxMem x =>
    obtain ⟨t, ht, -, -, hframe⟩ := finishNext_loadRegs_advances s x
    exact .withBytesAtI _ ⟨t, ht, .inr hframe⟩

/-- What exec answers has recorded a fault or is within the instruction's frame. -/
theorem exec_frame {i : Instr} {s t : State} (h : exec i s = .next t) :
    (∃ f, t = s.recordFault f) ∨ Untouched (touches i s) s t := by
  obtain ⟨u, hu, hframe⟩ := exec_keepsFrame i s
  obtain rfl := Host.Outcome.next.inj (h.symm.trans hu)
  exact hframe

/-- Settles O38: every instruction's answer keeps its row of the table. -/
theorem everyInstructionKeepsItsFrame : Obligations.EveryInstructionKeepsItsFrame := by
  unfold Obligations.EveryInstructionKeepsItsFrame
  exact fun _ _ _ => exec_frame

/-! ### The frame of a step -/

/-- What follows an instruction, the tick at most, writes the timers and the report only (R89, R97). -/
theorem Untouched.afterInstruction {w : Touches} {s t : State} (h : Untouched w s t) :
    Untouched { w with dt := true, st := true } s (afterInstruction t) := by
  obtain ⟨hreg, hmem, hi, hstack, -, -, hdisplay, hdraws, hkeys, hrun⟩ := h
  have hv (r : RegIx) : (Machine.afterInstruction t).getV r = t.getV r := State.getV_congr (afterInstruction_v t) r
  have hp (p : Nat) : (Machine.afterInstruction t).pixel p = t.pixel p := by simp [State.pixel]
  simpa [Untouched, hv, hp] using ⟨hreg, hmem, hi, hstack, hdisplay, hdraws, hkeys, hrun⟩

/-- All that a step can write: nothing but `RUN` and the report with a fault, else the frame of the instruction at `PC`
and the timers, and the timers alone at an unknown word. -/
theorem step_frame {s t : State} (h : step s = .next t) :
    (∃ f, t = s.recordFault f) ∨
    (∃ i, s.NextIs i ∧ Untouched { touches i s with dt := true, st := true } s t) ∨
    Untouched { dt := true, st := true } s t := by
  obtain ⟨-, ⟨-, rfl⟩ | ⟨i, u, hi, hu, rfl⟩ | ⟨w, -, -, rfl⟩⟩ := step_cases h
  · exact .inl ⟨_, rfl⟩
  · rcases exec_frame hu with ⟨f, rfl⟩ | hframe
    · exact .inl ⟨f, afterInstruction_faulted rfl⟩
    · exact .inr (.inl ⟨i, hi, hframe.afterInstruction⟩)
  · exact .inr (.inr (tick_unknownOpcode_untouched s w))

/-! ### KEY (R23) -/

theorem Untouched.keys_eq {w : Touches} {s t : State} (h : Untouched w s t) : t.keys = s.keys := by
  obtain ⟨-, -, -, -, -, -, -, -, hkeys, -⟩ := h
  exact hkeys

theorem step_keys {s t : State} (h : step s = .next t) : t.keys = s.keys := by
  rcases step_frame h with ⟨f, rfl⟩ | ⟨i, -, hframe⟩ | hframe
  · rfl
  · exact hframe.keys_eq
  · exact hframe.keys_eq

/-- The host writes `KEY` by WriteKeys and Reset only (R23, R102). -/
theorem hostAct_changes_keys {a : HostAction} {s : State} (h : (hostAct a s).keys ≠ s.keys) :
    (∃ keys, a = .writeKeys keys) ∨ ∃ rom, a = .reset rom := by
  cases a with
  | writeKeys keys => exact .inl ⟨keys, rfl⟩
  | readFrame => exact absurd rfl h
  | consumeFrame => exact absurd rfl h
  | reset rom => exact .inr ⟨rom, rfl⟩

/-- Settles O40: no frame lists `KEY`, and the host's moves are few. -/
theorem keypadIsWrittenByTheHostOnly : Obligations.KeypadIsWrittenByTheHostOnly := by
  unfold Obligations.KeypadIsWrittenByTheHostOnly
  exact ⟨fun _ _ => step_keys, fun _ _ => hostAct_changes_keys, fun _ _ _ => rfl⟩

/-! ### Memory (R37) -/

/-- A byte that a step changes is listed by the instruction at `PC`. -/
theorem step_changes_mem {s t : State} {a : Nat} (h : step s = .next t) (ha : t.mem.read a ≠ s.mem.read a) :
    ∃ i, s.NextIs i ∧ a ∈ (touches i s).mem := by
  rcases step_frame h with ⟨f, rfl⟩ | ⟨i, hi, hframe⟩ | hframe
  · exact absurd rfl ha
  · exact ⟨i, hi, by_contra fun hno => ha (hframe.read_eq hno)⟩
  · exact absurd (hframe.read_eq List.not_mem_nil) ha

/-- The addresses from `I` to `I + n`. -/
theorem mem_effAddrs {s : State} {n a : Nat} (h : a ∈ (List.range (n + 1)).map (effAddr s)) :
    effAddr s 0 ≤ a ∧ a ≤ effAddr s n := by
  obtain ⟨k, hk, rfl⟩ := List.mem_map.1 h
  rw [List.mem_range] at hk
  unfold effAddr
  omega

/-- Settles O41: of the rows of the frame table only FX33's and FX55's list addresses. -/
theorem onlyTwoInstructionsWriteMemory : Obligations.OnlyTwoInstructionsWriteMemory := by
  unfold Obligations.OnlyTwoInstructionsWriteMemory
  intro s t a h ha
  obtain ⟨i, hi, hmem⟩ := step_changes_mem h ha
  cases i with
  | ldBVx x => exact .inl ⟨x, hi, mem_effAddrs hmem⟩
  | ldMemVx x => exact .inr ⟨x, hi, mem_effAddrs hmem⟩
  | _ => exact absurd hmem List.not_mem_nil

/-! ### Registers, I and the stack (R14, R16, R17) -/

/-- A register that a step changes is listed by the instruction at `PC`. -/
theorem step_changes_reg {s t : State} {r : RegIx} (h : step s = .next t) (hr : t.getV r ≠ s.getV r) :
    ∃ i, s.NextIs i ∧ r ∈ (touches i s).regs := by
  rcases step_frame h with ⟨f, rfl⟩ | ⟨i, hi, hframe⟩ | hframe
  · exact absurd rfl hr
  · exact ⟨i, hi, by_contra fun hno => hr (hframe.getV_eq hno)⟩
  · exact absurd (hframe.getV_eq List.not_mem_nil) hr

/-- A step that changes `I` runs an instruction that lists it. -/
theorem step_changes_i {s t : State} (h : step s = .next t) (hc : t.i ≠ s.i) :
    ∃ i, s.NextIs i ∧ (touches i s).i = true := by
  rcases step_frame h with ⟨f, rfl⟩ | ⟨i, hi, hframe⟩ | hframe
  · exact absurd rfl hc
  · exact ⟨i, hi, Bool.of_not_eq_false fun hno => hc (hframe.i_eq hno)⟩
  · exact absurd (hframe.i_eq rfl) hc

theorem Untouched.stack_eq {w : Touches} {s t : State} (h : Untouched w s t) (hw : w.stack = false) :
    t.sp = s.sp ∧ t.stack = s.stack := by
  obtain ⟨-, -, -, hstack, -⟩ := h
  exact hstack hw

/-- A step that changes `SP` or a slot runs an instruction that lists the stack. -/
theorem step_changes_stack {s t : State} (h : step s = .next t) (hc : t.sp ≠ s.sp ∨ t.stack ≠ s.stack) :
    ∃ i, s.NextIs i ∧ (touches i s).stack = true := by
  rw [← not_and_or] at hc
  rcases step_frame h with ⟨f, rfl⟩ | ⟨i, hi, hframe⟩ | hframe
  · exact absurd ⟨rfl, rfl⟩ hc
  · exact ⟨i, hi, Bool.of_not_eq_false fun hno => hc (hframe.stack_eq hno)⟩
  · exact absurd (hframe.stack_eq rfl) hc

/-- Settles O42, from the rows of the frame table that list I and the stack. -/
theorem registersIndexAndStackHaveNamedWriters : Obligations.RegistersIndexAndStackHaveNamedWriters := by
  unfold Obligations.RegistersIndexAndStackHaveNamedWriters
  refine fun s t h => ⟨fun r => step_changes_reg h, fun hc => ?_, fun hc => ?_⟩
  · obtain ⟨i, hi, hw⟩ := step_changes_i h hc
    cases i with
    | ldI nnn => exact .inl ⟨nnn, hi⟩
    | addIVx x => exact .inr ⟨x, .inl hi⟩
    | ldFVx x => exact .inr ⟨x, .inr hi⟩
    | _ => exact absurd hw Bool.false_ne_true
  · obtain ⟨i, hi, hw⟩ := step_changes_stack h hc
    cases i with
    | ret => exact .inl hi
    | call nnn => exact .inr ⟨nnn, hi⟩
    | _ => exact absurd hw Bool.false_ne_true

/-! ### The step and its tick (R88, R89, R97) -/

/-- Settles O28, from how a step goes on after an instruction that advances, blocks or faults. -/
theorem stepIsExecOfTheDecodedInstruction : Obligations.StepIsExecOfTheDecodedInstruction := by
  unfold Obligations.StepIsExecOfTheDecodedInstruction
  refine fun s i hr hi => ⟨step_exec hr hi, fun t es ht ha => ?_, fun t ht hstop => ?_⟩
  · rw [step_exec hr hi, ht, afterExec_next, afterInstruction_advanced ha]
  · rcases hstop with hb | ⟨f, hf⟩
    · exact step_of_exec_blocked hr hi ht hb
    · rw [step_exec hr hi, ht, afterExec_next, afterInstruction_faulted hf]

/-- Settles O36, from the laws of the tick. -/
theorem tickCountsDownAndBeeps : Obligations.TickCountsDownAndBeeps := by
  unfold Obligations.TickCountsDownAndBeeps
  exact fun s es h => ⟨tick_dt_toNat s, tick_st_toNat s, tick_lastStep h, tick_pc s, tick_untouched s⟩

/-- Settles O34: of the ends of a step only the blocked instruction reports Blocked, and only FX0A blocks. -/
theorem onlyTheKeyWaitBlocks : Obligations.OnlyTheKeyWaitBlocks := by
  unfold Obligations.OnlyTheKeyWaitBlocks
  intro s t h hb
  obtain ⟨-, ⟨-, rfl⟩ | ⟨i, u, hi, hu, rfl⟩ | ⟨w, -, -, rfl⟩⟩ := step_cases h
  · simp [State.recordFault] at hb
  · rcases exec_cases hu with ⟨ha, -⟩ | ⟨rfl, ⟨x, rfl⟩, hkeys⟩ | ⟨f, rfl, -⟩
    · simp [afterInstruction_advanced ha, tick_lastStep ha] at hb
    · exact ⟨afterInstruction_blocked rfl, hkeys, x, hi⟩
    · simp [afterInstruction_faulted, State.recordFault] at hb
  · simp [tick_unknownOpcode_lastStep] at hb

/-! ### The timers along a run (R97, R98) -/

/-- A step that advances and runs neither FX15 nor FX18 is the tick of a state with the timers of `s` and no beep among
its events. -/
theorem step_advanced_tick {s t : State} {es : List Event} (h : step s = .next t)
    (ha : t.lastStep = some (.advanced es)) (hn : ∀ x, ¬ s.NextIs (.ldDtVx x) ∧ ¬ s.NextIs (.ldStVx x)) :
    ∃ u es', t = tick u ∧ u.lastStep = some (.advanced es') ∧ Event.beep ∉ es' ∧ u.dt = s.dt ∧ u.st = s.st := by
  obtain ⟨-, ⟨-, rfl⟩ | ⟨i, u, hi, hu, rfl⟩ | ⟨w, -, -, rfl⟩⟩ := step_cases h
  · simp [State.recordFault] at ha
  · rcases exec_cases hu with ⟨hadv, -⟩ | ⟨rfl, -⟩ | ⟨f, rfl, -⟩
    · have hw : (touches i s).dt = false ∧ (touches i s).st = false := by
        cases i with
        | ldDtVx x => exact absurd hi (hn x).1
        | ldStVx x => exact absurd hi (hn x).2
        | _ => exact ⟨rfl, rfl⟩
      rcases exec_frame hu with ⟨f, rfl⟩ | hframe
      · simp [State.recordFault] at hadv
      · exact ⟨u, [], afterInstruction_advanced hadv, hadv, List.not_mem_nil, hframe.dt_eq hw.1, hframe.st_eq hw.2⟩
    · simp [afterInstruction_blocked] at ha
    · simp [afterInstruction_faulted, State.recordFault] at ha
  · exact ⟨unknownOpcode s w, [.unknownOpcode w], rfl, rfl, by simp, rfl, rfl⟩

/-- The tick of a state that reports no beep of its own beeps exactly when ST was 1 (R97). -/
theorem tick_emitted_beep {s : State} {es : List Event} (ha : s.lastStep = some (.advanced es))
    (hno : Event.beep ∉ es) : (tick s).Emitted .beep ↔ s.st = 1#8 := by
  by_cases h : s.st = 1#8 <;> simp [State.Emitted, tick_lastStep ha, h, hno]

/-- Such a step takes one off each timer and beeps exactly when ST was 1. -/
theorem step_advanced_timers {s t : State} {es : List Event} (h : step s = .next t)
    (ha : t.lastStep = some (.advanced es)) (hn : ∀ x, ¬ s.NextIs (.ldDtVx x) ∧ ¬ s.NextIs (.ldStVx x)) :
    t.dt.toNat = s.dt.toNat - 1 ∧ t.st.toNat = s.st.toNat - 1 ∧ (t.Emitted .beep ↔ s.st.toNat = 1) := by
  obtain ⟨u, es', rfl, hu, hbeep, hdt, hst⟩ := step_advanced_tick h ha hn
  refine ⟨by rw [tick_dt_toNat, hdt], by rw [tick_st_toNat, hst], ?_⟩
  rw [tick_emitted_beep hu hbeep, hst]
  exact BitVec.toNat_inj.symm

/-- After `k` steps of such a run each timer has lost `k`, floor 0. -/
theorem run_timers {n : Nat} {s : Nat → State} (hrun : AdvancingRun n s)
    (hn : ∀ k, k < n → ∀ x, ¬ (s k).NextIs (.ldDtVx x) ∧ ¬ (s k).NextIs (.ldStVx x)) (k : Nat) (hk : k ≤ n) :
    (s k).dt.toNat = (s 0).dt.toNat - k ∧ (s k).st.toNat = (s 0).st.toNat - k := by
  induction k with
  | zero => exact ⟨rfl, rfl⟩
  | succ k ih =>
    obtain ⟨hdt, hst⟩ := ih (Nat.le_of_succ_le hk)
    obtain ⟨h, es, ha⟩ := hrun k hk
    obtain ⟨hdt', hst', -⟩ := step_advanced_timers h ha (hn k hk)
    omega

/-- Settles O37: by induction over the run, and the beep of step `k + 1` from the ST it starts with. -/
theorem timersFallByOneEachStep : Obligations.TimersFallByOneEachStep := by
  unfold Obligations.TimersFallByOneEachStep
  intro n s hrun hn
  obtain ⟨hdt, hst⟩ := run_timers hrun hn n le_rfl
  refine ⟨hdt, hst, fun k hk => ?_⟩
  obtain ⟨h, es, ha⟩ := hrun k hk
  obtain ⟨-, -, hbeep⟩ := step_advanced_timers h ha (hn k hk)
  obtain ⟨-, hstk⟩ := run_timers hrun hn k (Nat.le_of_lt hk)
  rw [hbeep, hstk]
  omega

end Sys2Proof.Machine
end

section
/-! PROOFS. Facts across instructions, a resting machine, the end of a key wait, and other parameters (95_test_vectors.md S8 and S10; 20_memory.md R41; 60_exceptions.md R105; 70_reset_and_hazards.md R112; 00_scope.md R8). -/

namespace Sys2Proof.Machine

/-! ### Drawing twice (R81) -/

/-- A state that a draw can lead to lands the same sprite on the same pixels: memory, I and the coordinates are as
before, if neither coordinate is VF. -/
theorem spriteLands_after_draw {s t : State} {x y : RegIx} (n : Nibble) (p : Nat) (hx : x ≠ vf) (hy : y ≠ vf)
    (h : Untouched { regs := [vf], display := true } s t) : SpriteLands t x y n p ↔ SpriteLands s x y n p := by
  have hxv : t.getV x = s.getV x := h.getV_eq (by simpa using hx)
  have hyv : t.getV y = s.getV y := h.getV_eq (by simpa using hy)
  have hread (k : Nat) : t.mem.read (effAddr t k) = s.mem.read (effAddr s k) := by
    rw [effAddr, h.i_eq rfl, h.read_eq List.not_mem_nil]; rfl
  simp only [SpriteLands, hxv, hyv, hread]

/-- Settles O23: the second draw flips the pixels that the first one flipped, and erases those that it had set. -/
theorem drawingTwiceRestoresThePlane : Obligations.DrawingTwiceRestoresThePlane := by
  unfold Obligations.DrawingTwiceRestoresThePlane
  intro x y n s hx hy hin
  obtain ⟨t, ht, -, hpixel, -, -, -, hframe⟩ := drawWith_advances Config.params x y hin
  have hin' : n = 0#4 ∨ effAddr t (n.toNat - 1) ≤ 0xFFF := by
    rwa [effAddr, hframe.i_eq rfl]
  obtain ⟨u, hu, -, hpixel', hhit, hmiss, -, -⟩ := drawWith_advances Config.params x y hin'
  have hlands (p : Nat) := spriteLands_after_draw n p hx hy hframe
  have hset (p : Nat) : SpriteLands t x y n p ∧ t.pixel p = true ↔ SpriteLands s x y n p ∧ s.pixel p = false := by
    rw [hlands, hpixel, ← Bool.not_eq_true]
    tauto
  simp only [hset] at hhit hmiss
  refine ⟨t, u, ht, hu, fun p => ?_, ?_, hhit⟩
  · rw [Bool.eq_iff_iff, hpixel', hlands, hpixel]
    tauto
  · intro h1
    by_contra hno
    have h0 : u.getV vf = 0#8 := hmiss hno
    exact absurd (h0.symm.trans h1) (by decide)

/-! ### Call, then return (R52, R54) -/

/-- Settles O56: the return pops the slot that the call wrote. -/
theorem callThenReturnResumesAfterTheCall : Obligations.CallThenReturnResumesAfterTheCall := by
  unfold Obligations.CallThenReturnResumesAfterTheCall
  intro nnn s t u hroom ht hsp hstack
  obtain rfl := Host.Outcome.next.inj ((exec_call_of_room nnn hroom).symm.trans ht)
  have hentry : u.sp.val = (⟨s.sp.val, hroom⟩ : Fin 16).val + 1 := congrArg Fin.val hsp
  refine ⟨_, exec_ret_of_entry hentry, ?_, rfl⟩
  simp only [hstack, stack_set_get, if_true]

/-! ### Store, then fetch (R41) -/

/-- Settles O57: the fetch reads the two bytes that the store wrote. -/
theorem storedBytesAreFetched : Obligations.StoredBytesAreFetched := by
  unfold Obligations.StoredBytesAreFetched
  intro x k s t u hk ht hin hmem hpc
  obtain ⟨-, hstore⟩ := storeRegistersWritesConsecutiveBytes x
  obtain ⟨t', ht', -, hread, -⟩ := (hstore s).1 hin
  obtain rfl := Host.Outcome.next.inj (ht.symm.trans ht')
  have hval : (k + 1).val = k.val + 1 := Fin.val_add_one_of_lt' (by omega)
  have hle : k + 1 ≤ x := by rw [Fin.le_def, hval]; exact hk
  have hnext : u.pc.toNat + 1 = effAddr s (k + 1).val := by rw [hpc, hval]; rfl
  have hinside : u.pc.toNat + 1 ≤ 0xFFF := by rw [hnext, hval]; exact (Nat.add_le_add_left hk _).trans hin
  rw [fetch_of_inside hinside, hnext, hpc, hmem, hread k (Fin.le_def.2 (Nat.le_of_succ_le hk)), hread (k + 1) hle]

/-! ### At rest (R112) -/

theorem Untouched.run_eq {w : Touches} {s t : State} (h : Untouched w s t) : t.run = s.run := by
  obtain ⟨-, -, -, -, -, -, -, -, -, hrun⟩ := h
  exact hrun

/-- A state at the same `PC` with the same bytes has the same instruction next. -/
theorem State.NextIs.of_same {s t : State} {i : Instr} (hi : s.NextIs i) (hpc : t.pc = s.pc)
    (hmem : ∀ a, t.mem.read a = s.mem.read a) : t.NextIs i := by
  rwa [State.NextIs, hpc, hmem, hmem]

/-- Settles O58: the step of a resting machine is a jump to where it is, then the tick. -/
theorem atRestOnlyTheTimersChange : Obligations.AtRestOnlyTheTimersChange := by
  unfold Obligations.AtRestOnlyTheTimersChange
  rintro s ⟨hr, nnn, hi, hrest⟩
  obtain ⟨t, ht, ha, hjump⟩ := finish_advances s (zextAddr nnn)
  have hpc : (tick t).pc = s.pc := by rw [tick_pc, ha.1, hrest]
  have hframe : Untouched { dt := true, st := true } s (tick t) :=
    afterInstruction_advanced ha.2 ▸ hjump.afterInstruction
  refine ⟨_, step_of_exec_advances hr hi ht ha,
    ⟨hframe.run_eq.trans hr, nnn, ?_, hrest.trans hpc.symm⟩, hpc, ?_, ?_, hframe⟩
  · exact hi.of_same hpc fun a => hframe.read_eq List.not_mem_nil
  · rw [tick_dt_toNat, hjump.dt_eq rfl]
  · rw [tick_st_toNat, hjump.st_eq rfl]

/-! ### The end of a key wait (R105) -/

/-- The step of FX0A with a key pressed goes on, with the index of a pressed key in `V[x]` (R88). -/
theorem step_ldVxK_of_key {x : RegIx} {s : State} (hr : s.Running) (hi : s.NextIs (.ldVxK x))
    (hkey : ∃ k, s.key k = true) :
    ∃ u, step s = .next u ∧ u.pc = s.pc + 2#16 ∧ ∃ k : KeyIx, s.key k = true ∧ (u.getV x).toNat = k.val := by
  obtain ⟨-, hwait⟩ := keyWaitBlocksUntilAKeyIsPressed x
  obtain ⟨t, k, ht, ha, hk, hx, -⟩ := (hwait s).2 hkey
  exact ⟨_, step_of_exec_advances hr hi ht ha, by rw [tick_pc, ha.1], k, hk, by rw [tick_getV, hx]⟩

/-- Settles O59: the wait blocks with no tick; with the keys written the same instruction completes. -/
theorem writeKeysEndsTheWait : Obligations.WriteKeysEndsTheWait := by
  unfold Obligations.WriteKeysEndsTheWait
  intro x s keys hr hi hnone hsome
  have hblock := step_of_exec_blocked hr hi (exec_ldVxK_of_noKey x hnone) rfl
  obtain ⟨u, hu, hpc, hkey⟩ :=
    step_ldVxK_of_key (s := hostAct (.writeKeys keys) { s with lastStep := some .blocked }) hr hi hsome
  exact ⟨_, u, hblock, rfl, hu, hpc, hkey⟩

/-! ### Other parameters (R8) -/

/-- Two meanings that agree on the instruction a running core has next give one step. -/
theorem stepBy_congr {run run' : Instr → State → Result} {s : State}
    (h : ∀ i, s.Running → s.NextIs i → run i s = run' i s) : stepBy run s = stepBy run' s := by
  unfold stepBy
  split
  · rfl
  · rename_i hr
    rcases fetch_cases s with ⟨-, e⟩ | ⟨hin, e⟩ <;> rw [e]
    simp only
    split
    · rename_i i hd
      rw [h i hr ⟨hin, hd⟩]
    · rfl

/-- Settles O60: a step can differ only where the meaning of the next instruction does, and that is in the two
instructions that take a parameter. -/
theorem parametersReachOnlyDrawAndAddIndex : Obligations.ParametersReachOnlyDrawAndAddIndex := by
  unfold Obligations.ParametersReachOnlyDrawAndAddIndex
  refine ⟨fun i s => by rw [execWith_default], fun s => by rw [stepWith_default], constructed_default, fun rom s => rfl,
    fun p s hne => ?_, fun p s x y n hr hi => stepWith_exec p hr hi, fun p s x hr hi => stepWith_exec p hr hi⟩
  by_contra hno
  refine hne (stepBy_congr fun i hr hi => ?_)
  rcases execWith_cases p i s with e | ⟨x, y, n, rfl, -⟩ | ⟨x, rfl, -⟩
  · exact e
  · exact absurd ⟨hr, .inl ⟨x, y, n, hi⟩⟩ hno
  · exact absurd ⟨hr, .inr ⟨x, hi⟩⟩ hno

end Sys2Proof.Machine
end
